-- ==== Sys2Proof/Word.lean ====
section
/-! DEFINITION. The words, bit vectors and packets of the SCD (spec 00_scope.md R7, R8; 30_encoding.md R60). -/

namespace Sys2Proof

/-- A port word is 32 bits (R7). -/
abbrev Word := BitVec 32

/-- A bit vector in index order, element 0 first: for a track or a stream, index order is time order (R8). -/
abbrev Bits := List Bool

/-- One packet of the command port: a header word and zero or more payload words. The port marks where a packet
ends, so its length is known (R60). -/
structure Packet where
  header  : Word
  payload : List Word
  deriving DecidableEq, Repr

/-- The packet's actual length in words, header included (R60, R76). -/
def Packet.length (p : Packet) : Nat := 1 + p.payload.length

end Sys2Proof
end

