-- ==== Sys2Proof/Machine/Bits.lean ====
section
/-! DEFINITION. Fields of a word (spec 00_scope.md R7), the helper functions every rule uses (R9), overwriting a range of a bit vector (R10),
and the byte order of a serialized port word (20_memory.md R44). -/

namespace Sys2Proof.Machine

/-- `w[hi:lo]`: the unsigned integer made of bits `hi` down to `lo` of `w`, both included (R7). -/
def slice (w : Word) (hi lo : Nat) : Nat := w.toNat / 2 ^ lo % 2 ^ (hi - lo + 1)

/-- `rev(v)[j] = v[n-1-j]` (R9). -/
def rev (v : Bits) : Bits := v.reverse

/-- `msb_vec_k(x)[j] = bit (k-1-j) of x` (R9). -/
def msbVec (k x : Nat) : Bits := (List.range k).map fun j => x.testBit (k - 1 - j)

/-- `vec_int(v)`: the `x` with `msb_vec_k(x) = v` (R9). -/
def vecInt (v : Bits) : Nat := v.foldl (fun x b => 2 * x + b.toNat) 0

/-- `ceil32(n) = (n + 31) div 32` (R9). -/
def ceil32 (n : Nat) : Nat := (n + 31) / 32

/-- `be_int(w_0 .. w_{m-1})`, first word most significant (R9, R75). -/
def beInt (ws : List Word) : Nat := ws.foldl (fun x w => x * 2 ^ 32 + w.toNat) 0

/-- The `m` words that carry `x`, first word most significant: `beInt` the other way (R75). -/
def beWords (m x : Nat) : List Word := (List.range m).map fun i => BitVec.ofNat 32 (x / 2 ^ (32 * (m - 1 - i)))

/-- Word `m` of `pack32(v)`: bit `31 - j` is `v[32m + j]`, and 0 past the end (R9, U14). -/
def packWord (v : Bits) (m : Nat) : Word :=
  BitVec.ofNat 32 (vecInt ((List.range 32).map fun j => v.getD (32 * m + j) false))

/-- `pack32(v)`: `ceil32(|v|)` words (R9, R155). -/
def pack32 (v : Bits) : List Word := (List.range (ceil32 v.length)).map (packWord v)

/-- `v[at .. at + |w|) <- w` on a bit vector (R10). -/
def overwrite (v : Bits) (start : Nat) (w : Bits) : Bits :=
  v.take start ++ w ++ v.drop (start + w.length)

/-- The bytes of a port word when a physical link serializes it, most significant first (R44, D31). -/
def wordBytes (w : Word) : List (BitVec 8) :=
  [w.extractLsb' 24 8, w.extractLsb' 16 8, w.extractLsb' 8 8, w.extractLsb' 0 8]

end Sys2Proof.Machine
end

