-- ==== Sys2Proof/Syntax.lean ====
section
/-! DEFINITION. The commands of the SCD, one constructor per row of spec/opcode_table.json (30_encoding.md R62). -/

namespace Sys2Proof

/-- Where a builder command puts its block (R61): `none` is `P = 0` (append), `some pos` is `P = 1` with `POS = pos`. -/
abbrev Placement := Option (BitVec 16)

/-- One field record of ADDG (R64): the field id, the value's bit length as the host sends it, and the value words,
first word most significant (R75). -/
structure FieldRecord where
  fid   : BitVec 16
  len   : BitVec 16
  words : List Word
  deriving DecidableEq, Repr

/-- The command set (R62). Every operand travels in the packet (R29). -/
inductive Instr where
  /-- ADDG (R63, R96): `LD`, `MG` and the field records in packet order. -/
  | addg (place : Placement) (loadDac merge : Bool) (records : List FieldRecord)
  /-- ADDP (R65, R97): `LEN` and the pattern words. -/
  | addp (place : Placement) (len : Word) (words : List Word)
  /-- ADDI (R66, R98): `delay_until_rise`. -/
  | addi (place : Placement) (delay : Word)
  /-- COMPILE (R67, R120). -/
  | compile
  /-- RESET (R68, R129): `none` is `S = 0`, `some m` is `S = 1` with `TMASK = m`. -/
  | reset (mask : Option Word)
  /-- EXEC (R69, R130): `REPEAT`. -/
  | exec (rep : BitVec 16)
  /-- WAIT (R70, R131): `NPOLL`. -/
  | wait (npoll : Word)
  /-- DECODE (R71, R151): `INV`. -/
  | decode (inv : Bool)
  /-- RSTOUT (R72, R157). -/
  | rstout
  /-- STATUS (R73, R170). -/
  | status
  /-- RDTRK (R74, R171): `TRK`, `START`, `COUNT`. -/
  | rdtrk (trk : BitVec 5) (start count : Word)
  deriving DecidableEq, Repr

end Sys2Proof
end

