-- ==== Sys2Proof/WellFormed.lean ====
section
/-! DEFINITION. Which terms of `Instr` are commands a packet can carry (spec 30_encoding.md R63 to R65, R76). -/

namespace Sys2Proof

/-- A record's value travels in exactly `ceil32(LEN)` words (R64, R75). -/
def FieldRecord.wf (r : FieldRecord) : Bool := r.words.length == Machine.ceil32 r.len.toNat

/-- ADDG carries at most 511 records (`NUPD` has 9 bits, R63), each with its words; ADDP carries `ceil32(LEN)` pattern
words (R65). Every other operand is bounded by its type. -/
def Instr.wf : Instr → Bool
  | .addg _ _ _ records => decide (records.length ≤ 511) && records.all FieldRecord.wf
  | .addp _ len words => words.length == Machine.ceil32 len.toNat
  | .addi _ _ => true
  | .compile => true
  | .reset _ => true
  | .exec _ => true
  | .wait _ => true
  | .decode _ => true
  | .rstout => true
  | .status => true
  | .rdtrk _ _ _ => true

end Sys2Proof
end

