-- ==== Sys2Proof/Decode.lean ====
section
/-! DEFINITION. The decoder from packets to commands, total and rejecting by name (spec 30_encoding.md R60 to R77),
the expected packet length (R76), the encoder written from the same layouts, and the host's entry point. -/

namespace Sys2Proof

open Machine (ceil32 slice)

/-- Why a packet is no command. Each of the four raises `IllegalCommand` (R77). -/
inductive DecodeError where
  /-- An opcode of 0x0 or 0xC to 0xF. -/
  | reservedOpcode
  /-- A 1 in a reserved header bit. -/
  | reservedBits
  /-- `P = 0` with `POS ≠ 0` in ADDG, ADDP or ADDI. -/
  | positionWithoutFlag
  /-- A length that differs from the expected one. -/
  | badLength
  deriving DecidableEq, Repr

/-- The opcode `H[31:28]` (R61). -/
def opcodeOf (h : Word) : Nat := slice h 31 28

/-- The reserved bits of a header, by its opcode (R63 to R74), are all 0. A reserved opcode has none. -/
def reservedBitsClear (h : Word) : Bool :=
  match opcodeOf h with
  | 2 | 3 => slice h 26 16 == 0
  | 4 | 7 | 9 | 10 => slice h 27 0 == 0
  | 5 => slice h 26 0 == 0
  | 6 => slice h 27 16 == 0
  | 8 => slice h 27 1 == 0
  | 11 => slice h 27 21 == 0 && slice h 15 0 == 0
  | _ => true

/-- `P` and `POS` of a builder header (R61). -/
def placementOf (h : Word) : Placement :=
  if slice h 27 27 = 1 then some (BitVec.ofNat 16 (slice h 15 0)) else none

/-- A builder header with `P = 0` has `POS = 0` (R61, R77). -/
def placementLegal (h : Word) : Bool := slice h 27 27 == 1 || slice h 15 0 == 0

/-- The first word of a field record is `FID` then `LEN` (R64). -/
def recordWord (r : FieldRecord) : Word := r.fid ++ r.len

/-- `n` field records, one after another, and nothing after them (R63, R64). -/
def decodeRecords : Nat → List Word → Option (List FieldRecord)
  | 0, [] => some []
  | 0, _ :: _ => none
  | _ + 1, [] => none
  | n + 1, w :: ws =>
    let m := ceil32 (slice w 15 0)
    if ws.length < m then none
    else
      (decodeRecords n (ws.drop m)).map fun rs =>
        ⟨BitVec.ofNat 16 (slice w 31 16), BitVec.ofNat 16 (slice w 15 0), ws.take m⟩ :: rs

/-- ADDG (R63, R64). -/
def decodeAddg (h : Word) (payload : List Word) : Except DecodeError Instr :=
  if placementLegal h then
    match decodeRecords (slice h 24 16) payload with
    | some rs => .ok (.addg (placementOf h) (slice h 26 26 == 1) (slice h 25 25 == 1) rs)
    | none => .error .badLength
  else .error .positionWithoutFlag

/-- ADDP (R65). -/
def decodeAddp (h : Word) (payload : List Word) : Except DecodeError Instr :=
  if placementLegal h then
    match payload with
    | len :: words =>
      if words.length = ceil32 len.toNat then .ok (.addp (placementOf h) len words) else .error .badLength
    | [] => .error .badLength
  else .error .positionWithoutFlag

/-- ADDI (R66). -/
def decodeAddi (h : Word) (payload : List Word) : Except DecodeError Instr :=
  if placementLegal h then
    match payload with
    | [delay] => .ok (.addi (placementOf h) delay)
    | _ => .error .badLength
  else .error .positionWithoutFlag

/-- A command with no payload. -/
def decodeBare (i : Instr) (payload : List Word) : Except DecodeError Instr :=
  match payload with
  | [] => .ok i
  | _ :: _ => .error .badLength

/-- RESET (R68): `S` says whether `TMASK` follows. -/
def decodeReset (h : Word) (payload : List Word) : Except DecodeError Instr :=
  match slice h 27 27, payload with
  | 0, [] => .ok (.reset none)
  | 1, [m] => .ok (.reset (some m))
  | _, _ => .error .badLength

/-- WAIT (R70). -/
def decodeWait (payload : List Word) : Except DecodeError Instr :=
  match payload with
  | [npoll] => .ok (.wait npoll)
  | _ => .error .badLength

/-- RDTRK (R74). -/
def decodeRdtrk (h : Word) (payload : List Word) : Except DecodeError Instr :=
  match payload with
  | [start, count] => .ok (.rdtrk (BitVec.ofNat 5 (slice h 20 16)) start count)
  | _ => .error .badLength

/-- The command a packet stands for, or the reason it stands for none (R60 to R77). -/
def decode (p : Packet) : Except DecodeError Instr :=
  let h := p.header
  if reservedBitsClear h then
    match opcodeOf h with
    | 1 => decodeAddg h p.payload
    | 2 => decodeAddp h p.payload
    | 3 => decodeAddi h p.payload
    | 4 => decodeBare .compile p.payload
    | 5 => decodeReset h p.payload
    | 6 => decodeBare (.exec (BitVec.ofNat 16 (slice h 15 0))) p.payload
    | 7 => decodeWait p.payload
    | 8 => decodeBare (.decode (slice h 0 0 == 1)) p.payload
    | 9 => decodeBare .rstout p.payload
    | 10 => decodeBare .status p.payload
    | 11 => decodeRdtrk h p.payload
    | _ => .error .reservedOpcode
  else .error .reservedBits

/-! ### Expected packet length -/

/-- The words `n` records take from payload index `start` on, each record's `LEN` read in order (R76). -/
def recordsLength : Nat → Nat → (Nat → Word) → Nat
  | 0, _, _ => 0
  | n + 1, start, w =>
    let m := 1 + ceil32 (slice (w start) 15 0)
    m + recordsLength n (start + m) w

/-- How many payload words a packet with header `h` has, where `w i` is `P[i]` (R76). A reserved opcode has no
expected length; 0 stands there, and such a packet is illegal whatever its length (R77). -/
def payloadLength (h : Word) (w : Nat → Word) : Nat :=
  match opcodeOf h with
  | 1 => recordsLength (slice h 24 16) 0 w
  | 2 => 1 + ceil32 (w 0).toNat
  | 3 => 1
  | 5 => slice h 27 27
  | 7 => 1
  | 11 => 2
  | _ => 0

/-- Expected packet length in words, header included (R76). -/
def expectedLength (p : Packet) : Nat := 1 + payloadLength p.header fun i => p.payload.getD i 0

/-! ### Encoder -/

/-- The opcode of each command (R62). -/
def Instr.opcode : Instr → Nat
  | .addg _ _ _ _ => 1
  | .addp _ _ _ => 2
  | .addi _ _ => 3
  | .compile => 4
  | .reset _ => 5
  | .exec _ => 6
  | .wait _ => 7
  | .decode _ => 8
  | .rstout => 9
  | .status => 10
  | .rdtrk _ _ _ => 11

/-- `P` in bit 27 and `POS` in bits 15 to 0 (R61), as an integer. -/
def placeBits : Placement → Nat
  | none => 0
  | some pos => 0x08000000 + pos.toNat

/-- The header of each command as an integer: the row's `match` value of spec/opcode_table.json plus the operands'
bits (R61 to R74). -/
def headerBits : Instr → Nat
  | .addg pl ld mg rs =>
    0x10000000 + (if ld then 0x04000000 else 0) + (if mg then 0x02000000 else 0) + placeBits pl + rs.length * 0x10000
  | .addp pl _ _ => 0x20000000 + placeBits pl
  | .addi pl _ => 0x30000000 + placeBits pl
  | .compile => 0x40000000
  | .reset none => 0x50000000
  | .reset (some _) => 0x58000000
  | .exec rep => 0x60000000 + rep.toNat
  | .wait _ => 0x70000000
  | .decode false => 0x80000000
  | .decode true => 0x80000001
  | .rstout => 0x90000000
  | .status => 0xA0000000
  | .rdtrk trk _ _ => 0xB0000000 + trk.toNat * 0x10000

/-- The payload words (R63 to R74). -/
def payloadWords : Instr → List Word
  | .addg _ _ _ rs => rs.flatMap fun r => recordWord r :: r.words
  | .addp _ len words => len :: words
  | .addi _ delay => [delay]
  | .compile => []
  | .reset mask => mask.toList
  | .exec _ => []
  | .wait npoll => [npoll]
  | .decode _ => []
  | .rstout => []
  | .status => []
  | .rdtrk _ start count => [start, count]

/-- The packet of a well-formed command (R60 to R74). -/
def encode (i : Instr) : Packet := ⟨BitVec.ofNat 32 (headerBits i), payloadWords i⟩

/-! ### One table row as a packet -/

/-- Word `i` of a packet whose bits are numbered as spec/opcode_table.json numbers them: bit 0 is the least significant
bit of the header, and each later word's bits count on from there. -/
def tableWord (w i : Nat) : Word := BitVec.ofNat 32 (w / 2 ^ (32 * i))

/-- The packet whose first `nbits` bits are `w` and whose further bits are 0, as long as its own words say (R76).
DESIGN CHOICE (log 22). -/
def tablePacket (nbits w : Nat) : Packet :=
  let v := w % 2 ^ nbits
  ⟨tableWord v 0, (List.range (payloadLength (tableWord v 0) fun i => tableWord v (i + 1))).map fun i => tableWord v (i + 1)⟩

/-- The command the decoder reads from an instruction whose bits are `w`. -/
def decodeTableWord (nbits w : Nat) : Option Instr :=
  match decode (tablePacket nbits w) with
  | .ok i => some i
  | .error _ => none

end Sys2Proof
end

