-- ==== Sys2Proof/Machine/Errors.lean ====
section
/-! DEFINITION. The error codes, their classes and the response words of an error (spec 60_exceptions.md R181 to
R184). -/

namespace Sys2Proof.Machine

/-- The error codes other than OK (R182). -/
inductive ErrCode where
  | illegalCommand | injectDelay | patternLength | valueRange | unknownField | badPosition | queueFull | badTrack
  | rangeError | streamOverflow | badTimeout
  | emptyQueue | readoutConsumed | execBusy | notCompiled
  | timedOut | fifoRead | transportError
  deriving DecidableEq, Repr

/-- The classes of errors (R181). -/
inductive ErrClass where
  | structural | validation | protocol | transport
  deriving DecidableEq, Repr

/-- The 8-bit `CODE` of a response (R182). -/
def ErrCode.code : ErrCode → BitVec 8
  | .illegalCommand => 0x01
  | .injectDelay => 0x02
  | .patternLength => 0x03
  | .valueRange => 0x04
  | .unknownField => 0x05
  | .badPosition => 0x06
  | .queueFull => 0x07
  | .badTrack => 0x08
  | .rangeError => 0x09
  | .streamOverflow => 0x0A
  | .badTimeout => 0x0B
  | .emptyQueue => 0x10
  | .readoutConsumed => 0x11
  | .execBusy => 0x12
  | .notCompiled => 0x13
  | .timedOut => 0x20
  | .fifoRead => 0x21
  | .transportError => 0x22

/-- The class of each code (R181, R182). -/
def ErrCode.cls : ErrCode → ErrClass
  | .illegalCommand => .structural
  | .injectDelay | .patternLength | .valueRange | .unknownField | .badPosition | .queueFull | .badTrack | .rangeError
  | .streamOverflow | .badTimeout => .validation
  | .emptyQueue | .readoutConsumed | .execBusy | .notCompiled => .protocol
  | .timedOut | .fifoRead | .transportError => .transport

/-- An error with its context, track and offending value (R183). -/
structure Err where
  code : ErrCode
  ctx  : BitVec 16
  trk  : BitVec 8
  val  : Word
  deriving DecidableEq, Repr

/-- The track field of an error that concerns no track (R183). -/
def noTrack : BitVec 8 := 0xFF

/-- The response to an error: `(ctx << 16) | (trk << 8) | CODE`, then `val` (R184). -/
def Err.words (e : Err) : List Word := [e.ctx ++ e.trk ++ e.code.code, e.val]

/-- `IllegalCommand` for the packet header `h` (R77, R183). -/
def illegal (h : Word) : Err := ⟨.illegalCommand, 0, noTrack, h⟩

end Sys2Proof.Machine
end

