-- ==== Sys2Proof/Config.lean ====
section
/-! DEFINITION. The implementation parameters (spec 00_scope.md R5, R6), what the outside agents can answer, and the
free values: opaque constants, of which nothing can be proved (spec 93_implementation_defined.md U2 to U8). -/

namespace Sys2Proof

/-- One field of the global register, `(fid, name, offset, width, empty)`; `fid` is its index in `GFIELDS` (R5). No rule
reads the name (log 28). -/
structure Field where
  name   : String
  offset : Nat
  width  : Nat
  empty  : Bool
  deriving DecidableEq, Repr

/-- The field holds bit `p` of the global register. -/
def Field.covers (f : Field) (p : Nat) : Bool := decide (f.offset ≤ p) && decide (p < f.offset + f.width)

/-- The configuration the model takes as an argument (R5). `pollInterval` is a time in an unnamed unit: no rule
depends on it (R195). -/
structure Config where
  globalWidth  : Nat
  gfields      : List Field
  debugUnit    : Bits
  pixelWidth   : Nat
  lInject      : Nat
  ntracks      : Nat
  trackLen     : Nat
  qmax         : Nat
  pollInterval : Nat
  deriving DecidableEq, Repr

/-- `GAP`: the idle bits after every block, the constant 40 (R6). -/
def gap : Nat := 40

/-- The fields tile `[0, GLOBAL_WIDTH)` exactly, without overlap (R5): each field lies inside, and each bit lies in
exactly one field. DEDUCED (log 29): the order of the list need not be the order of the offsets. -/
def Config.tiles (c : Config) : Bool :=
  c.gfields.all (fun f => decide (f.offset + f.width ≤ c.globalWidth)) &&
    (List.range c.globalWidth).all (fun p => c.gfields.countP (fun f => f.covers p) == 1)

/-- Every constraint of R5. A configuration that breaks one is refused (R5, U22). -/
def Config.wf (c : Config) : Bool :=
  decide (1 ≤ c.globalWidth ∧ c.globalWidth ≤ 65535) &&
  decide (c.gfields.length ≤ 65536) &&
  c.gfields.all (fun f => decide (1 ≤ f.width ∧ f.width ≤ 65535)) &&
  c.tiles &&
  decide (1 ≤ c.debugUnit.length) &&
  decide (1 ≤ c.pixelWidth ∧ c.pixelWidth ≤ 65535) &&
  decide (1 ≤ c.lInject ∧ c.lInject ≤ 2 ^ 32 - 1) &&
  decide (5 ≤ c.ntracks ∧ c.ntracks ≤ 32) &&
  decide (1 ≤ c.trackLen ∧ c.trackLen ≤ 2 ^ 32 - 1) &&
  decide (1 ≤ c.qmax ∧ c.qmax ≤ 65535) &&
  decide (0 < c.pollInterval)

/-- The configuration of `State.reset`: CFG_A of spec 95_test_vectors.md section 0, whose widths 100, 64 and 500 are
the source's reference values. DESIGN CHOICE (log 2): the spec leaves the configuration open. -/
def Config.reference : Config where
  globalWidth  := 100
  gfields      := [⟨"f0", 0, 4, false⟩, ⟨"f1", 4, 8, false⟩, ⟨"f2", 12, 24, false⟩, ⟨"f3", 36, 64, false⟩]
  debugUnit    := [true, false]
  pixelWidth   := 64
  lInject      := 500
  ntracks      := 5
  trackLen     := 4096
  qmax         := 64
  pollInterval := 10

/-- How one call of the transport port or the FIFO port ends (R50, U8). -/
inductive Answer where
  /-- The call completes. -/
  | ok
  /-- The call reports a failure. -/
  | fail
  /-- `read_fifo_words()` returns at most the `k` oldest words (R151); any other call completes. -/
  | short (k : Nat)
  deriving DecidableEq, Repr, Inhabited

/-- The transport's execution state (R32, R194). -/
inductive Phase where
  /-- Nothing started since power-on. -/
  | idle
  /-- A finite execution that answers `false` to `polls` more polls (log 19). -/
  | running (polls : Nat)
  /-- An execution with `REPEAT = 0`, which never reports done. -/
  | endless
  /-- The execution has been seen to finish: `true` until the next `start()`. -/
  | finished
  deriving DecidableEq, Repr, Inhabited

/-- The transport: the copy of the stream it was handed (R52), the repeat count and its execution state. -/
structure Transport where
  stream      : List Bits
  totalLength : Word
  repeatCount : BitVec 16
  phase       : Phase
  deriving DecidableEq, Repr, Inhabited

/-- FREE VALUE (log 3): bit `t` of track `k` after power-on (R211, U2). -/
opaque Config.powerOnBit : Nat → Nat → Bool

/-- FREE VALUE (log 4): the FIFO's words at power-on (R210, U4). -/
opaque Config.powerOnFifo : List Word

/-- FREE VALUE (log 7): how an unscheduled port call ends (U8). -/
opaque Config.freeAnswer : Nat → Answer

/-- FREE VALUE (log 7, log 19): how many polls an unscheduled finite execution answers `false` (R194, U5). -/
opaque Config.freePolls : Nat → Nat

/-- FREE VALUE (log 7, log 8): the words an unscheduled capture appends to the FIFO (R197, U3). -/
opaque Config.freeCapture : Nat → List Word

/-- FREE VALUE (log 9): the transport after a failed EXEC (U7). -/
opaque Config.freeTransport : Nat → Transport

/-- FREE VALUE (log 14): the answer of a poll before any `start()`; R194 says such a poll is never made. -/
opaque Config.freePollDone : Nat → Bool

/-- FREE VALUE (log 13): the response word that stands for a number too large for 32 bits, which no rule states. -/
opaque Config.freeWord : Nat → Word

end Sys2Proof
end

