-- ==== Sys2Proof/Machine/Image.lean ====
section
/-! DEFINITION. The global-register image: the base image and the per-field reversal (spec 40_builder.md R93, R94). -/

namespace Sys2Proof.Machine

/-- The field that holds bit `p` of the global register. Under R5 there is exactly one. -/
def fieldAt (c : Config) (p : Nat) : Option Field := c.gfields.find? fun f => f.covers p

/-- Bit `p` of the base image: the debug pattern in an empty field, 0 elsewhere (R93). -/
def baseBit (c : Config) (p : Nat) : Bool :=
  match fieldAt c p with
  | some f => f.empty && c.debugUnit.getD ((p - f.offset) % c.debugUnit.length) false
  | none => false

/-- The base image `G0 : Bits GLOBAL_WIDTH` (R93). -/
def baseImage (c : Config) : Bits := (List.range c.globalWidth).map (baseBit c)

/-- Bit `p` of `phys(img)`: with `p = o + j` in the field `(o, k)` it is `img[o + k - 1 - j]` (R94). -/
def physBit (c : Config) (img : Bits) (p : Nat) : Bool :=
  match fieldAt c p with
  | some f => img.getD (f.offset + f.width - 1 - (p - f.offset)) false
  | none => false

/-- The shift image `phys(img) : Bits GLOBAL_WIDTH`: each field reversed in place (R94). -/
def phys (c : Config) (img : Bits) : Bits := (List.range c.globalWidth).map (physBit c img)

end Sys2Proof.Machine
end

