-- ==== Sys2Proof/Machine/State.lean ====
section
/-! DEFINITION. The state of the SCD and of the agents around it, as plain data (spec 10_state.md R20 to R32,
20_memory.md R40, 60_exceptions.md R192), its value after power-on reset (70_reset_and_hazards.md R210), and the
reasons a step can stop. -/

namespace Sys2Proof.Machine

/-- The kind of a block (R22). -/
inductive BlockKind where
  /-- A global-register load, made by ADDG. -/
  | global
  /-- A pixel-register load, made by ADDP. -/
  | pixel
  /-- An injection pulse, made by ADDI. -/
  | inject
  deriving DecidableEq, Repr

/-- A block descriptor `(kind, len, pat)` (R22). `pat` lists the tracks the block defines, in rising track order, each
with its bits. -/
structure Block where
  kind : BlockKind
  len  : Nat
  pat  : List (Nat × Bits)
  deriving DecidableEq, Repr

/-- The track memory `T`: row `k` is track `k`, element `t` of a row is bit `t` (R20, R40). DESIGN CHOICE (log 15):
the spec's tracks have a fixed width and hold no bytes, so they are held whole. -/
abbrev Memory := List Bits

/-- The track memory has `NTRACKS` tracks of `TRACK_LEN` bits each (R20, R40). -/
def Memory.wf (c : Config) (m : Memory) : Bool :=
  m.length == c.ntracks && m.all fun track => track.length == c.trackLen

/-- The words of one response (R184). -/
abbrev Response := List Word

/-- What the outside agents will answer, as far as it is scheduled; past the end of a list the free values of Config
stand, applied to `draws`, which each of them advances (log 7). The model's own, not the spec's. -/
structure Env where
  answers  : List Answer
  polls    : List Nat
  captures : List (List Word)
  draws    : Nat
  deriving DecidableEq, Repr

/-- The whole state: the configuration (log 1), the tuple `S` of R20, the transport and the FIFO (R32), the agents'
answers to come, the packets waiting at the command port and the responses sent, oldest first (R40). `drained` is the
model's own: an RSTOUT has emptied the FIFO, and no EXEC has called the transport since, so the FIFO takes no words
(R197, log 8). -/
structure State where
  cfg      : Config
  queue    : List Block
  gsnap    : Bits
  lenreg   : Word
  busy     : Bool
  compiled : Bool
  consumed : Bool
  tracks   : Memory
  xport    : Transport
  fifo     : List Word
  drained  : Bool
  env      : Env
  cmds     : List Packet
  rsps     : List Response
  deriving DecidableEq, Repr

/-- `QLEN` is `|Q|`, not a register (R20). -/
def State.qlen (s : State) : Nat := s.queue.length

/-- The elements of `S` (R20), as one value: what an error leaves unchanged (R185). -/
def State.tuple (s : State) : List Block × Bits × Word × Bool × Bool × Bool × Memory :=
  (s.queue, s.gsnap, s.lenreg, s.busy, s.compiled, s.consumed, s.tracks)

/-- The track memory after power-on: every bit unspecified (R211), a free value each (log 3). -/
def powerOnTracks (c : Config) : Memory :=
  (List.range c.ntracks).map fun k => (List.range c.trackLen).map fun t => Config.powerOnBit k t

/-- The state after power-on reset under the configuration `c` (R210). The FIFO's contents are unspecified (log 4), the
transport is idle with nothing loaded (log 23), no RSTOUT has run (log 8), nothing is scheduled (log 7), and both ports
are empty (log 5, log 6). -/
def State.powerOn (c : Config) : State where
  cfg      := c
  queue    := []
  gsnap    := baseImage c
  lenreg   := 0
  busy     := false
  compiled := false
  consumed := true
  tracks   := powerOnTracks c
  xport    := ⟨[], 0, 0, .idle⟩
  fifo     := Config.powerOnFifo
  drained  := false
  env      := ⟨[], [], [], 0⟩
  cmds     := []
  rsps     := []

/-- The machine right after power-on reset (R210), under the configuration of log 2. -/
def State.reset : State := .powerOn .reference

/-- The SCD has no fault that stops it: every error is a response, after which it takes the next packet (R180, R189,
R190). So the type has no constructor, and that is safe (log 25). -/
inductive Fault where
  deriving DecidableEq, Repr

/-- Why a step is refused. -/
inductive Refusal where
  /-- Raised by an arm of `exec` whose instruction has no meaning yet. Safe: nothing can be proved of such a step. -/
  | notModelled (mnemonic : String)
  /-- Raised by `step` when the configuration breaks a constraint of R5 (U22, log 26). Safe: the spec gives such a
  machine no behaviour. -/
  | badConfiguration
  deriving DecidableEq, Repr

end Sys2Proof.Machine
end

