-- ==== Sys2Proof/Machine/Operands.lean ====
section
/-! DEFINITION. The operands of the commands: value carriage, field records and track masks (spec 30_encoding.md R64,
R68, R75; 40_builder.md R96), and numbers in response words (log 13). -/

namespace Sys2Proof.Machine

/-- A number in a 32-bit response word. No rule states the word for a number that does not fit: a free value then
(log 13). -/
def numWord (x : Nat) : Word := if x < 2 ^ 32 then BitVec.ofNat 32 x else Config.freeWord x

/-- A queue length or block index as the `ctx` of an error (R183). It fits in every reachable state (log 16). -/
def ctxOf (n : Nat) : BitVec 16 := BitVec.ofNat 16 n

/-- One field record applied to an image, with its three checks in order (R96, R187). -/
def applyRecord (c : Config) (idx : Nat) (r : FieldRecord) (img : Bits) : Except Err Bits :=
  match c.gfields[r.fid.toNat]? with
  | none => .error ⟨.unknownField, ctxOf idx, 0, recordWord r⟩
  | some f =>
    if r.len.toNat ≠ f.width then .error ⟨.patternLength, ctxOf idx, 0, recordWord r⟩
    else if 2 ^ r.len.toNat ≤ beInt r.words then .error ⟨.valueRange, ctxOf idx, 0, recordWord r⟩
    else .ok (overwrite img f.offset (msbVec r.len.toNat (beInt r.words)))

/-- The field records in packet order, stopping at the first error (R96). -/
def applyRecords (c : Config) (idx : Nat) : List FieldRecord → Bits → Except Err Bits
  | [], img => .ok img
  | r :: rs, img =>
    match applyRecord c idx r img with
    | .ok img' => applyRecords c idx rs img'
    | .error e => .error e

/-- ADDP's pattern: `LEN` must be `PIXEL_WIDTH` and the value must fit (R97). The value of `ValueRange` is `P[1]`. -/
def pixelPattern (c : Config) (idx : Nat) (len : Word) (words : List Word) : Except Err Bits :=
  if len.toNat ≠ c.pixelWidth then .error ⟨.patternLength, ctxOf idx, 0, len⟩
  else if 2 ^ len.toNat ≤ beInt words then .error ⟨.valueRange, ctxOf idx, 0, words.headD 0⟩
  else .ok (msbVec len.toNat (beInt words))

/-- RESET clears track `k`: every track with `S = 0`, those with `TMASK[k] = 1` with `S = 1` (R68, R129). -/
def maskSelects (mask : Option Word) (k : Nat) : Bool :=
  match mask with
  | none => true
  | some m => m.getLsbD k

/-- `TMASK` has a 1 at some bit `k ≥ NTRACKS` (R129, U16). -/
def maskBeyond (c : Config) (m : Word) : Bool := (List.range 32).any fun k => decide (c.ntracks ≤ k) && m.getLsbD k

end Sys2Proof.Machine
end

