-- ==== Sys2Proof/Machine/Ops.lean ====
section
/-! DEFINITION. The operations the commands share: the track memory's primitives (spec 20_memory.md R42), responses and
errors (60_exceptions.md R180, R184), the builders' preamble and placement (40_builder.md R90, R91), the layout of a
stream (41_sequencing.md R120 to R126), and the calls on the transport and FIFO ports (20_memory.md R50, R51;
60_exceptions.md R194, R197). -/

namespace Sys2Proof.Machine

/-! ### Track memory -/

/-- Track ids (R41). -/
def shiftIn : Nat := 0
/-- Track id 1 (R41). -/
def shiftEn : Nat := 1
/-- Track id 2 (R41). -/
def ctrlLoad : Nat := 2
/-- Track id 3 (R41). -/
def dacLoad : Nat := 3
/-- Track id 4 (R41). -/
def injection : Nat := 4

/-- `T[k][t]` (R10). Outside the memory it reads 0, where no command reads (R42, log 24). -/
def Memory.bit (m : Memory) (k t : Nat) : Bool := (m.getD k []).getD t false

/-- `MemRead(k, t, n)` (R10, R42). -/
def Memory.read (m : Memory) (k t n : Nat) : Bits := ((m.getD k []).drop t).take n

/-- `MemWrite(k, t, v)` (R10, R42). -/
def Memory.write (m : Memory) (k t : Nat) (v : Bits) : Memory := m.modify k fun track => overwrite track t v

/-- Every selected track set to all 0: `set_all(false)` (R42, R129). -/
def Memory.clear (c : Config) (mask : Option Word) (m : Memory) : Memory :=
  m.mapIdx fun k track => if maskSelects mask k then List.replicate c.trackLen false else track

/-- The first `n` stream vectors: bit `k` of `V[t]` is `T[k][t]` (R52). -/
def Memory.vectors (m : Memory) (n : Nat) : List Bits :=
  (List.range n).map fun t => m.map fun track => track.getD t false

/-! ### Responses and errors -/

/-- One response is sent (R184). -/
def State.respond (s : State) (r : Response) : State := { s with rsps := s.rsps ++ [r] }

/-- `respond(0x0000_0000, results)`: the command succeeds (R184). -/
def State.succeed (s : State) (results : List Word) : State := s.respond (0 :: results)

/-- `raise E(ctx, trk, val)`: the command ends with an error response and writes nothing of `S` (R10, R180, R184,
R185). This is the one way an error is taken; there is no return from it, the next packet follows (R190). -/
def State.raise (s : State) (e : Err) : State := s.respond e.words

/-- `ExecBusy` for the command with this opcode (R90, R183). -/
def busyErr (s : State) (opcode : Word) : Err := ⟨.execBusy, ctxOf s.qlen, noTrack, opcode⟩

/-! ### Builders -/

/-- The builders' preamble: the index the block will take, or the first error (R90). -/
def builderIndex (opcode : Word) (pl : Placement) (s : State) : Except Err Nat :=
  if s.busy then .error (busyErr s opcode)
  else
    match pl with
    | none =>
      if s.qlen = s.cfg.qmax then .error ⟨.queueFull, ctxOf s.qlen, noTrack, numWord s.cfg.qmax⟩ else .ok s.qlen
    | some pos =>
      if s.qlen < pos.toNat then .error ⟨.badPosition, ctxOf s.qlen, noTrack, pos.setWidth 32⟩
      else if s.qlen = s.cfg.qmax then .error ⟨.queueFull, ctxOf s.qlen, noTrack, numWord s.cfg.qmax⟩
      else .ok pos.toNat

/-- The queue with `b` placed before index `idx` (R91). -/
def placeAt (q : List Block) (idx : Nat) (b : Block) : List Block := q.take idx ++ [b] ++ q.drop idx

/-- A built block is placed and COMPILED is cleared (R91, R92). -/
def State.place (s : State) (idx : Nat) (b : Block) : State :=
  { s with queue := placeAt s.queue idx b, compiled := false }

/-- The Global block of a logical image (R95). -/
def globalBlock (c : Config) (img : Bits) (loadDac : Bool) : Block :=
  let w := c.globalWidth
  ⟨.global, w + 2,
    [(shiftIn, phys c img ++ [false, false]),
     (shiftEn, List.replicate w true ++ [false, false]),
     (ctrlLoad, List.replicate (w + 1) false ++ [true]),
     (dacLoad, List.replicate (w + 1) false ++ [loadDac])]⟩

/-- The Pixel block of a pattern, which is not reversed (R97). -/
def pixelBlock (c : Config) (b : Bits) : Block :=
  ⟨.pixel, c.pixelWidth, [(shiftIn, b), (shiftEn, List.replicate c.pixelWidth true)]⟩

/-- The Inject block that rises after `d` low bits (R98). -/
def injectBlock (c : Config) (d : Nat) : Block :=
  ⟨.inject, c.lInject, [(injection, List.replicate d false ++ List.replicate (c.lInject - d) true)]⟩

/-! ### Layout of the stream -/

/-- The lead-in: `L_INJECT` when an Inject block stands first (R121). -/
def leadIn (c : Config) (q : List Block) : Nat :=
  match q with
  | b :: _ => if b.kind = .inject then c.lInject else 0
  | [] => 0

/-- The blocks with their start offsets, the first at `pos` (R120, R121). -/
def placeBlocks : Nat → List Block → List (Nat × Block)
  | _, [] => []
  | pos, b :: bs => (pos, b) :: placeBlocks (pos + b.len + gap) bs

/-- The offset after the last block's gap (R120). -/
def endOfBlocks : Nat → List Block → Nat
  | pos, [] => pos
  | pos, b :: bs => endOfBlocks (pos + b.len + gap) bs

/-- `total` (R120, R122). -/
def streamLength (c : Config) (q : List Block) : Nat := endOfBlocks (leadIn c q) q

/-- One block's patterns written at its start offset (R125). -/
def writeBlock (m : Memory) (placed : Nat × Block) : Memory :=
  placed.2.pat.foldl (fun m kv => m.write kv.1 placed.1 kv.2) m

/-- The tracks after a successful COMPILE: INJECTION high over `[0, total)`, then each block (R124, R125). -/
def compileTracks (c : Config) (q : List Block) (m : Memory) : Memory :=
  (placeBlocks (leadIn c q) q).foldl writeBlock (m.write injection 0 (List.replicate (streamLength c q) true))

/-! ### The outside agents -/

/-- How the next port call ends: scheduled, else a free value (U8, log 7). -/
def State.call (s : State) : Answer × State :=
  match s.env.answers with
  | a :: rest => (a, { s with env := { s.env with answers := rest } })
  | [] => (Config.freeAnswer s.env.draws, { s with env := { s.env with draws := s.env.draws + 1 } })

/-- The call reports a failure. -/
def answerFailed : Answer → Bool
  | .fail => true
  | .ok => false
  | .short _ => false

/-- The words `read_fifo_words()` returns from the FIFO's words, or none on failure (R50, R51). -/
def answerWords (fifo : List Word) : Answer → Option (List Word)
  | .ok => some fifo
  | .fail => none
  | .short k => some (fifo.take k)

/-- The receiver appends the words of one capture, scheduled or free (R197, log 7). -/
def State.capture (s : State) : State :=
  match s.env.captures with
  | ws :: rest => { s with fifo := s.fifo ++ ws, env := { s.env with captures := rest } }
  | [] =>
    { s with fifo := s.fifo ++ Config.freeCapture s.env.draws, env := { s.env with draws := s.env.draws + 1 } }

/-- The transport is playing a stream (R194). -/
def phasePlaying : Phase → Bool
  | .running _ => true
  | .endless => true
  | .idle => false
  | .finished => false

/-- No words can reach the FIFO: the transport plays nothing, or RSTOUT has emptied the FIFO and no EXEC has called the
transport since (R197, D34, log 8). -/
def State.fifoQuiet (s : State) : Bool := s.drained || !phasePlaying s.xport.phase

/-- What the chip has done since the last port call: while a transport plays, also one that a failed EXEC has left
playing (U7), any words may have reached the FIFO (R51, R192, R222, log 8). -/
def State.chipStep (s : State) : State := if s.fifoQuiet then s else s.capture

/-- One call on the transport port or the FIFO port, after the chip's step (R50, R222). -/
def State.portCall (s : State) : Answer × State := s.chipStep.call

/-- `poll_done()` by the transport: `false` until the rounds are played, then `true` (R194). -/
def State.pollDone (s : State) : Bool × State :=
  match s.xport.phase with
  | .running 0 => (true, { s with xport := { s.xport with phase := .finished } })
  | .running (k + 1) => (false, { s with xport := { s.xport with phase := .running k } })
  | .endless => (false, s)
  | .finished => (true, s)
  | .idle => (Config.freePollDone s.env.draws, { s with env := { s.env with draws := s.env.draws + 1 } })

/-- `load_sequence(V, LENREG)`, `set_repeat_count(rep)` and `start()` have completed: the transport plays its own copy,
for ever when `rep = 0`, else until a number of polls that is scheduled or free (R52, R194, log 19). -/
def State.startTransport (s : State) (rep : BitVec 16) : State :=
  let load := fun ph => Transport.mk (s.tracks.vectors s.lenreg.toNat) s.lenreg rep ph
  if rep = 0 then { s with xport := load .endless }
  else
    match s.env.polls with
    | n :: rest => { s with xport := load (.running n), env := { s.env with polls := rest } }
    | [] =>
      { s with
        xport := load (.running (Config.freePolls s.env.draws)),
        env := { s.env with draws := s.env.draws + 1 } }

/-- After a failed EXEC the transport is in any state (U7, log 9), and words may reach the FIFO again (R197, log 8). -/
def State.transportUnknown (s : State) : State :=
  State.capture
    { s with
      xport := Config.freeTransport s.env.draws,
      drained := false,
      env := { s.env with draws := s.env.draws + 1 } }

end Sys2Proof.Machine
end

