-- ==== Sys2Proof/Machine/Builder.lean ====
section
/-! DEFINITION. The block builder commands ADDG, ADDP and ADDI (spec 40_builder.md). None of them writes the tracks,
LENREG, BUSY or CONSUMED (R92). -/

namespace Sys2Proof.Machine

/-- ADDG (R96): the image starts from GSNAP with `MG = 1` and from the base image with `MG = 0`; the records apply in
packet order; the block is placed and the image becomes GSNAP. -/
def addg (pl : Placement) (loadDac merge : Bool) (records : List FieldRecord) (s : State) : State :=
  match builderIndex 1 pl s with
  | .error e => s.raise e
  | .ok idx =>
    match applyRecords s.cfg idx records (if merge then s.gsnap else baseImage s.cfg) with
    | .error e => s.raise e
    | .ok img => State.succeed { s.place idx (globalBlock s.cfg img loadDac) with gsnap := img } [numWord idx]

/-- ADDP (R97). -/
def addp (pl : Placement) (len : Word) (words : List Word) (s : State) : State :=
  match builderIndex 2 pl s with
  | .error e => s.raise e
  | .ok idx =>
    match pixelPattern s.cfg idx len words with
    | .error e => s.raise e
    | .ok b => (s.place idx (pixelBlock s.cfg b)).succeed [numWord idx]

/-- ADDI (R98): a delay above `L_INJECT` is refused; `d = L_INJECT` is all low. -/
def addi (pl : Placement) (delay : Word) (s : State) : State :=
  match builderIndex 3 pl s with
  | .error e => s.raise e
  | .ok idx =>
    if s.cfg.lInject < delay.toNat then s.raise ⟨.injectDelay, ctxOf idx, BitVec.ofNat 8 injection, delay⟩
    else (s.place idx (injectBlock s.cfg delay.toNat)).succeed [numWord idx]

/-- The meaning of ADDG. -/
def execAddg (pl : Placement) (loadDac merge : Bool) (records : List FieldRecord) (s : State) :
    Host.Outcome State Fault Refusal := .next (addg pl loadDac merge records s)

/-- The meaning of ADDP. -/
def execAddp (pl : Placement) (len : Word) (words : List Word) (s : State) : Host.Outcome State Fault Refusal :=
  .next (addp pl len words s)

/-- The meaning of ADDI. -/
def execAddi (pl : Placement) (delay : Word) (s : State) : Host.Outcome State Fault Refusal :=
  .next (addi pl delay s)

end Sys2Proof.Machine
end

