-- ==== Sys2Proof/Machine/Flags.lean ====
section
/-! DEFINITION. The status word made of the three flags and QLEN (spec 10_state.md R28). The SCD has no other flags
and computes none from arithmetic (R31). -/

namespace Sys2Proof.Machine

/-- The status word: `QLEN` in [31:16], 0 in [15:3], CONSUMED, COMPILED and BUSY in [2], [1] and [0] (R28, U13).
`QLEN` fits its 16 bits in every reachable state (log 16). -/
def statusWord (s : State) : Word :=
  BitVec.ofNat 16 s.qlen ++ 0#13 ++ BitVec.ofBool s.consumed ++ BitVec.ofBool s.compiled ++ BitVec.ofBool s.busy

end Sys2Proof.Machine
end

