-- ==== Sys2Proof/Machine/Query.lean ====
section
/-! DEFINITION. The query commands STATUS and RDTRK, which write no state and are allowed while BUSY is 1 (spec
43_query.md). -/

namespace Sys2Proof.Machine

/-- STATUS (R170). It does not poll the transport. -/
def status (s : State) : State := s.succeed [statusWord s, s.lenreg]

/-- RDTRK (R171): the sum `START + COUNT` is unbounded. -/
def rdtrk (trk : BitVec 5) (start count : Word) (s : State) : State :=
  if s.cfg.ntracks ≤ trk.toNat then s.raise ⟨.badTrack, 0, trk.setWidth 8, trk.setWidth 32⟩
  else if s.cfg.trackLen < start.toNat + count.toNat then s.raise ⟨.rangeError, 0, trk.setWidth 8, start⟩
  else s.succeed (pack32 (s.tracks.read trk.toNat start.toNat count.toNat))

/-- The meaning of STATUS. -/
def execStatus (s : State) : Host.Outcome State Fault Refusal := .next (status s)

/-- The meaning of RDTRK. -/
def execRdtrk (trk : BitVec 5) (start count : Word) (s : State) : Host.Outcome State Fault Refusal :=
  .next (rdtrk trk start count s)

end Sys2Proof.Machine
end

