-- ==== Sys2Proof/Machine/Readout.lean ====
section
/-! DEFINITION. The readout commands DECODE and RSTOUT (spec 42_readout.md). -/

namespace Sys2Proof.Machine

/-- The bytes of the FIFO words, for each word the high byte and then the low byte; bits [31:16] are ignored (R150,
R151 steps 1 to 3). -/
def weave (ws : List Word) : List Nat := ws.flatMap fun w => [slice w 15 8, slice w 7 0]

/-- The decoded bits: each byte most significant bit first, complemented when `INV = 1` (R151 steps 4 and 5, R152). -/
def deserialize (inv : Bool) (ws : List Word) : Bits :=
  let out := (weave ws).flatMap (msbVec 8)
  if inv then out.map (!·) else out

/-- DECODE (R151): `n` is the number of words in the FIFO when its count is asked for (R150, R197). The FIFO's words stay
where they are until an RSTOUT (log 12), and a call that fails takes none of them away (log 10); words of a transport that
plays on may follow them, before the count and between the count and the read (R192, log 8). -/
def decodeFifo (inv : Bool) (s : State) : State :=
  if s.busy then s.raise (busyErr s 8)
  else if s.consumed then s.raise ⟨.readoutConsumed, 0, noTrack, 0⟩
  else
    let count := s.portCall
    if answerFailed count.1 then count.2.raise ⟨.fifoRead, 1, noTrack, 0⟩
    else
      let n := count.2.fifo.length
      let read := count.2.portCall
      match answerWords read.2.fifo read.1 with
      | none => read.2.raise ⟨.fifoRead, 2, noTrack, numWord n⟩
      | some ws =>
        if ws.length < n then read.2.raise ⟨.fifoRead, 2, noTrack, numWord n⟩
        else
          State.succeed { read.2 with consumed := true }
            (numWord (16 * n) :: pack32 (deserialize inv (ws.take n)))

/-- RSTOUT (R157): after it the FIFO is empty and takes no words until the next EXEC (R197, D34), and CONSUMED is 0. -/
def rstout (s : State) : State :=
  if s.busy then s.raise (busyErr s 9)
  else
    let c := s.portCall
    if answerFailed c.1 then c.2.raise ⟨.fifoRead, 3, noTrack, 0⟩
    else State.succeed { c.2 with fifo := [], consumed := false, drained := true } []

/-- The meaning of DECODE. -/
def execDecode (inv : Bool) (s : State) : Host.Outcome State Fault Refusal := .next (decodeFifo inv s)

/-- The meaning of RSTOUT. -/
def execRstout (s : State) : Host.Outcome State Fault Refusal := .next (rstout s)

end Sys2Proof.Machine
end

