-- ==== Sys2Proof/Machine/Sequencing.lean ====
section
/-! DEFINITION. The sequencing commands COMPILE, RESET, EXEC and WAIT (spec 41_sequencing.md). -/

namespace Sys2Proof.Machine

/-- COMPILE (R120): the queue is laid out on the tracks and stays as it is (R127). All checks come before any write
(R123, R185). -/
def compile (s : State) : State :=
  if s.busy then s.raise (busyErr s 4)
  else if s.qlen = 0 then s.raise ⟨.emptyQueue, 0, noTrack, 0⟩
  else
    let total := streamLength s.cfg s.queue
    if s.cfg.trackLen < total then
      s.raise ⟨.streamOverflow, ctxOf s.qlen, noTrack, BitVec.ofNat 32 (min total (2 ^ 32 - 1))⟩
    else
      State.succeed
        { s with
          tracks := compileTracks s.cfg s.queue s.tracks,
          lenreg := BitVec.ofNat 32 total,
          compiled := true }
        [numWord total]

/-- RESET (R129): the selected tracks are cleared and the queue is emptied. GSNAP, BUSY and CONSUMED stay. -/
def reset (mask : Option Word) (s : State) : State :=
  if s.busy then s.raise (busyErr s 5)
  else if mask.any (maskBeyond s.cfg) then s.raise ⟨.badTrack, 0, noTrack, mask.getD 0⟩
  else
    State.succeed
      { s with tracks := s.tracks.clear s.cfg mask, queue := [], lenreg := 0, compiled := false } []

/-- EXEC (R130): the three transport calls in order, the first failure reported with its number in `ctx`. A failure
leaves `S` unchanged; what the transport took is unknown (U7, log 9). An EXEC that BUSY or a missing compile refuses
changes nothing outside `S` either (R185). -/
def execStream (rep : BitVec 16) (s : State) : State :=
  if s.busy then s.raise (busyErr s 6)
  else if s.compiled = false then s.raise ⟨.notCompiled, ctxOf s.qlen, noTrack, 0⟩
  else
    let load := s.portCall
    if answerFailed load.1 then load.2.transportUnknown.raise ⟨.transportError, 1, noTrack, 0⟩
    else
      let count := load.2.portCall
      if answerFailed count.1 then
        count.2.transportUnknown.raise ⟨.transportError, 2, noTrack, rep.setWidth 32⟩
      else
        let start := count.2.portCall
        if answerFailed start.1 then start.2.transportUnknown.raise ⟨.transportError, 3, noTrack, 0⟩
        else State.succeed { start.2.startTransport rep with busy := true, drained := false } []

/-- WAIT's poll loop (R131): `left` polls may still be made and `i` is the number of the next one. Letting
POLL_INTERVAL pass changes nothing (R195, log 17), and a poll that fails does not count for the transport (log 18). -/
def pollLoop (npoll : Word) : Nat → Nat → State → State
  | 0, _, s => s.raise ⟨.timedOut, 0, noTrack, npoll⟩
  | left + 1, i, s =>
    let poll := s.portCall
    if answerFailed poll.1 then poll.2.raise ⟨.transportError, 4, noTrack, numWord i⟩
    else
      let done := poll.2.pollDone
      if done.1 then State.succeed { done.2 with busy := false } [numWord i]
      else pollLoop npoll left (i + 1) done.2

/-- WAIT (R131): with BUSY 0 there is nothing to wait for and no poll is made. -/
def wait (npoll : Word) (s : State) : State :=
  if npoll = 0 then s.raise ⟨.badTimeout, 0, noTrack, 0⟩
  else if s.busy = false then s.succeed [0]
  else pollLoop npoll npoll.toNat 1 s

/-- The meaning of COMPILE. -/
def execCompile (s : State) : Host.Outcome State Fault Refusal := .next (compile s)

/-- The meaning of RESET. -/
def execReset (mask : Option Word) (s : State) : Host.Outcome State Fault Refusal := .next (reset mask s)

/-- The meaning of EXEC. -/
def execExec (rep : BitVec 16) (s : State) : Host.Outcome State Fault Refusal := .next (execStream rep s)

/-- The meaning of WAIT. -/
def execWait (npoll : Word) (s : State) : Host.Outcome State Fault Refusal := .next (wait npoll s)

end Sys2Proof.Machine
end

