-- ==== Sys2Proof/Machine/Dispatch.lean ====
section
/-! DEFINITION. One arm per command: each calls the meaning of that command (spec 30_encoding.md R62). -/

namespace Sys2Proof.Machine

def exec (i : Instr) (s : State) : Host.Outcome State Fault Refusal :=
  match i with
  | .addg pl ld mg rs => Sys2Proof.Machine.execAddg pl ld mg rs s
  | .addp pl len ws => Sys2Proof.Machine.execAddp pl len ws s
  | .addi pl d => Sys2Proof.Machine.execAddi pl d s
  | .compile => Sys2Proof.Machine.execCompile s
  | .reset m => Sys2Proof.Machine.execReset m s
  | .exec rep => Sys2Proof.Machine.execExec rep s
  | .wait n => Sys2Proof.Machine.execWait n s
  | .decode inv => Sys2Proof.Machine.execDecode inv s
  | .rstout => Sys2Proof.Machine.execRstout s
  | .status => Sys2Proof.Machine.execStatus s
  | .rdtrk k a n => Sys2Proof.Machine.execRdtrk k a n s

end Sys2Proof.Machine
end

