-- ==== Sys2Proof/Machine/Fetch.lean ====
section
/-! DEFINITION. Taking the next packet from the command port (spec 10_state.md R30, 30_encoding.md R60), and placing
one there. -/

namespace Sys2Proof.Machine

/-- The oldest waiting packet and the state without it, if one waits (R30). -/
def State.takePacket (s : State) : Option (Packet × State) :=
  match s.cmds with
  | [] => none
  | p :: rest => some (p, { s with cmds := rest })

/-- The packet `p` waits first at the command port. -/
def State.offerFirst (s : State) (p : Packet) : State := { s with cmds := p :: s.cmds }

end Sys2Proof.Machine
end

