-- ==== Sys2Proof/Machine/Step.lean ====
section
/-! DEFINITION. One step of the SCD: one packet, one response (spec 60_exceptions.md R192). -/

namespace Sys2Proof.Machine

/-- One step. A configuration that breaks R5 is refused (log 26). With no packet waiting the SCD waits, and nothing
changes (log 5). Else the oldest packet is taken, and it runs as the command it decodes to or raises `IllegalCommand`
(R30, R60, R77). The other agents move only inside it (log 20). -/
def step (s : State) : Host.Outcome State Fault Refusal :=
  if s.cfg.wf then
    match s.takePacket with
    | none => .next s
    | some (p, s') =>
      match decode p with
      | .ok i => exec i s'
      | .error _ => .next (s'.raise (illegal p.header))
  else .refused .badConfiguration

/-- The state whose next step runs the instruction with these bits: its packet waits first at the command port
(log 22). -/
def State.withFetchWord (s : State) (nbits w : Nat) : State := s.offerFirst (tablePacket nbits w)

end Sys2Proof.Machine
end

