-- ==== Sys2Proof/Machine/Assembler.lean ====
section
/-! DEFINITION. The assembly syntax (spec 30_encoding.md R78) and the source's operation names (R79), as syntax trees.
Reading the text of a line is left to a tool (log 21). -/

namespace Sys2Proof.Machine

/-- One `f<FID>[:<LEN>]=<value>` of an `addg` line (R78). -/
structure AsmField where
  fid   : BitVec 16
  len   : Option (BitVec 16)
  value : Nat
  deriving DecidableEq, Repr

/-- The value of an `addp` line: an integer with an optional length, or a `0b` string in index order (R78). -/
inductive AsmPattern where
  | int (value : Nat) (len : Option Word)
  | digits (bits : Bits) (len : Option Word)
  deriving DecidableEq, Repr

/-- One line of assembly (R78). -/
inductive AsmLine where
  | addg (ld mg : Bool) (place : Placement) (fields : List AsmField)
  | addp (place : Placement) (pattern : AsmPattern)
  | addi (place : Placement) (delay : Word)
  | compile
  | reset (tmask : Option Word)
  | exec (rep : BitVec 16)
  | wait (npoll : Word)
  | decode (inv : Bool)
  | rstout
  | status
  | rdtrk (trk : BitVec 5) (start count : Word)
  deriving DecidableEq, Repr

/-- The value words of an integer, if it fits in them (R75, log 21). -/
def valueWords (len value : Nat) : Option (List Word) :=
  if value < 2 ^ (32 * ceil32 len) then some (beWords (ceil32 len) value) else none

/-- A field record of an `addg` line; `LEN` defaults to the field's width (R78). DESIGN CHOICE (log 21): a field written
without `LEN` whose `FID` is at or above `NFIELDS` has no width to take, R78 says nothing of it, and it is not
assembled. -/
def asmRecord (c : Config) (f : AsmField) : Option FieldRecord :=
  match f.len, c.gfields[f.fid.toNat]? with
  | some len, _ => (valueWords len.toNat f.value).map fun ws => ⟨f.fid, len, ws⟩
  | none, some g =>
    if g.width < 2 ^ 16 then (valueWords g.width f.value).map fun ws => ⟨f.fid, BitVec.ofNat 16 g.width, ws⟩ else none
  | none, none => none

/-- The records of an `addg` line, in the order written (R78). -/
def asmRecords (c : Config) : List AsmField → Option (List FieldRecord)
  | [] => some []
  | f :: fs =>
    match asmRecord c f, asmRecords c fs with
    | some r, some rs => some (r :: rs)
    | _, _ => none

/-- The `LEN` of an `addp` line: as written, else `PIXEL_WIDTH` (R78). -/
def asmPixelLen (c : Config) (len : Option Word) : Option Word :=
  match len with
  | some l => some l
  | none => if c.pixelWidth < 2 ^ 32 then some (BitVec.ofNat 32 c.pixelWidth) else none

/-- The length and value words of an `addp` line; a `0b` string must have exactly `LEN` digits, and its first digit is
first in time (R78, R75). -/
def asmPattern (c : Config) : AsmPattern → Option (Word × List Word)
  | .int value len =>
    (asmPixelLen c len).bind fun l => (valueWords l.toNat value).map fun ws => (l, ws)
  | .digits bits len =>
    (asmPixelLen c len).bind fun l =>
      if bits.length = l.toNat then (valueWords l.toNat (vecInt bits)).map fun ws => (l, ws) else none

/-- The command a line encodes (R78); NUPD allows at most 511 field records (R63). -/
def assemble (c : Config) : AsmLine → Option Instr
  | .addg ld mg pl fs =>
    if fs.length ≤ 511 then (asmRecords c fs).map fun rs => .addg pl ld mg rs else none
  | .addp pl p => (asmPattern c p).map fun lw => .addp pl lw.1 lw.2
  | .addi pl d => some (.addi pl d)
  | .compile => some .compile
  | .reset m => some (.reset m)
  | .exec rep => some (.exec rep)
  | .wait n => some (.wait n)
  | .decode inv => some (.decode inv)
  | .rstout => some .rstout
  | .status => some .status
  | .rdtrk k a n => some (.rdtrk k a n)

/-- The source's operations (R79); `place` is the insertion "at an explicit position". -/
inductive SourceCall where
  | addGlobalBlock (fields : List AsmField) (loadDac : Bool) (place : Placement)
  | addPixelBlock (pattern : AsmPattern) (place : Placement)
  | addInjectionBlock (delay : Word) (place : Placement)
  | compile
  | reset (fields : Option Word)
  | resetOutput
  | decodeReadout (invert : Bool)
  deriving DecidableEq, Repr

/-- Each alias expands to one line (R79). -/
def SourceCall.expand : SourceCall → AsmLine
  | .addGlobalBlock fs ld pl => .addg ld false pl fs
  | .addPixelBlock p pl => .addp pl p
  | .addInjectionBlock d pl => .addi pl d
  | .compile => .compile
  | .reset m => .reset m
  | .resetOutput => .rstout
  | .decodeReadout inv => .decode inv

end Sys2Proof.Machine
end

