-- ==== Sys2Proof/Safety.lean ====
section
/-! DEFINITION. What the statements are stated in: a safe step, the invariant of the machine, when the operands of a
command are in range, and the spec's own formulas for offsets and record values. -/

namespace Sys2Proof.Machine

/-- A step is safe when it answers a next state: the machine neither faults nor refuses. -/
def Safe (s : State) : Prop := ∃ t, step s = .next t

/-! ### The invariant -/

/-- The length of each kind of block (R22). -/
def kindLen (c : Config) : BlockKind → Nat
  | .global => c.globalWidth + 2
  | .pixel => c.pixelWidth
  | .inject => c.lInject

/-- The tracks each kind of block defines (R22). -/
def kindTracks : BlockKind → List Nat
  | .global => [0, 1, 2, 3]
  | .pixel => [0, 1]
  | .inject => [4]

/-- A block has its kind's length and tracks, and each pattern has the block's length (R22). -/
def Block.wf (c : Config) (b : Block) : Bool :=
  b.len == kindLen c b.kind && b.pat.map Prod.fst == kindTracks b.kind &&
    b.pat.all fun kv => kv.2.length == b.len

/-- What holds of every state the machine reaches: the shapes of R20 to R24 and R40, what COMPILED says of the tracks
(R26), and what BUSY says of the transport (R25, R47, R52, R194). -/
structure Inv (s : State) : Prop where
  /-- The configuration meets R5. -/
  configured : s.cfg.wf = true
  /-- `NTRACKS` tracks of `TRACK_LEN` bits (R20). -/
  tracksWf : s.tracks.wf s.cfg = true
  /-- `QLEN ≤ QMAX` (R20). -/
  queueFits : s.queue.length ≤ s.cfg.qmax
  /-- Every block is as R22 says. -/
  blocksWf : ∀ b ∈ s.queue, b.wf s.cfg = true
  /-- `GSNAP : Bits GLOBAL_WIDTH` (R20). -/
  gsnapLen : s.gsnap.length = s.cfg.globalWidth
  /-- `LENREG` is bounded by `TRACK_LEN` (R128). -/
  lenregFits : s.lenreg.toNat ≤ s.cfg.trackLen
  /-- COMPILED: the tracks hold a compile of the current queue and LENREG its length (R24, R26). -/
  compiledTracks : s.compiled = true →
    s.queue ≠ [] ∧ streamLength s.cfg s.queue = s.lenreg.toNat ∧ compileTracks s.cfg s.queue s.tracks = s.tracks
  /-- BUSY: the transport plays its copy of the compiled stream, for ever exactly when the repeat count is 0 (R25,
  R47, R52, R194). -/
  busyTransport : s.busy = true →
    s.compiled = true ∧ s.xport.stream = s.tracks.vectors s.lenreg.toNat ∧ s.xport.totalLength = s.lenreg ∧
      phasePlaying s.xport.phase = true ∧ (s.xport.phase = .endless ↔ s.xport.repeatCount = 0)
  /-- BUSY: the FIFO takes the chip's words (R51, R192). -/
  busyTakesWords : s.busy = true → s.drained = false

/-! ### Operands in range -/

/-- The index a builder command's block takes (R90). -/
def placeIndex (pl : Placement) (s : State) : Nat :=
  match pl with
  | none => s.queue.length
  | some pos => pos.toNat

/-- No check of the builders' preamble fails (R90). -/
def builderAdmits (pl : Placement) (s : State) : Bool :=
  !s.busy && decide (placeIndex pl s ≤ s.queue.length) && decide (s.queue.length < s.cfg.qmax)

/-- A field record is valid: its field exists, its length is the field's width and its value fits (R64, R96). -/
def recordOk (c : Config) (r : FieldRecord) : Bool :=
  match c.gfields[r.fid.toNat]? with
  | none => false
  | some f => r.len.toNat == f.width && decide (beInt r.words < 2 ^ r.len.toNat)

/-- The record names the field that holds bit `p`. -/
def recordCovers (c : Config) (p : Nat) (r : FieldRecord) : Bool :=
  match c.gfields[r.fid.toNat]? with
  | none => false
  | some f => f.covers p

/-- Bit `p` of an image after the records: from the last record that names its field, else from the base (R96). -/
def recordsBit (c : Config) (rs : List FieldRecord) (base : Bits) (p : Nat) : Bool :=
  match rs.reverse.find? (recordCovers c p) with
  | none => base.getD p false
  | some r =>
    match c.gfields[r.fid.toNat]? with
    | none => false
    | some f => (beInt r.words).testBit (f.width - 1 - (p - f.offset))

/-! ### Offsets of the stream -/

/-- `start_i = lead + Σ_{j<i} (len_j + GAP)` (R121). -/
def startOf (c : Config) (q : List Block) (i : Nat) : Nat :=
  leadIn c q + ((q.take i).map fun b => b.len + 40).sum

/-- `total = lead + Σ len_i + GAP × |Q|` (R122). -/
def totalOf (c : Config) (q : List Block) : Nat := leadIn c q + (q.map Block.len).sum + 40 * q.length

/-- Bit `t` lies in block `i`'s range (R121). -/
def inBlock (c : Config) (q : List Block) (i t : Nat) : Prop :=
  ∃ b, q[i]? = some b ∧ startOf c q i ≤ t ∧ t < startOf c q i + b.len

/-- Block `i` defines track `k` (R22). -/
def definesTrack (q : List Block) (i k : Nat) : Prop := ∃ b, q[i]? = some b ∧ k ∈ b.pat.map Prod.fst

/-! ### Polls and responses -/

/-- The state after `n` completed polls of one WAIT (R131). -/
def afterPolls : Nat → State → State
  | 0, s => s
  | n + 1, s => afterPolls n s.portCall.2.pollDone.2

/-- Poll `i + 1` of one WAIT does not fail (R131). -/
def pollCompletes (s : State) (i : Nat) : Prop := answerFailed (afterPolls i s).portCall.1 = false

/-- Commands run one after another (R30, R47). -/
def runCommands : List Instr → State → Host.Outcome State Fault Refusal
  | [], s => .next s
  | i :: is, s =>
    match exec i s with
    | .next t => runCommands is t
    | .fault f => .fault f
    | .refused r => .refused r

/-- How many result words follow the status word of a successful command (R184). -/
def resultCount (s : State) : Instr → Nat
  | .addg _ _ _ _ => 1
  | .addp _ _ _ => 1
  | .addi _ _ => 1
  | .compile => 1
  | .reset _ => 0
  | .exec _ => 0
  | .wait _ => 1
  | .decode _ => 1 + ceil32 (16 * s.portCall.2.fifo.length)
  | .rstout => 0
  | .status => 2
  | .rdtrk _ _ count => ceil32 count.toNat

/-- The commands that BUSY refuses (R186). -/
def busyRefuses : Instr → Bool
  | .addg _ _ _ _ => true
  | .addp _ _ _ => true
  | .addi _ _ => true
  | .compile => true
  | .reset _ => true
  | .exec _ => true
  | .wait _ => false
  | .decode _ => true
  | .rstout => true
  | .status => false
  | .rdtrk _ _ _ => false

/-- Bit `i` of a header with opcode `op` is reserved (R65 to R74; ADDG has no reserved bit, R63). -/
def reservedBit (op i : Nat) : Bool :=
  match op with
  | 2 => decide (16 ≤ i ∧ i ≤ 26)
  | 3 => decide (16 ≤ i ∧ i ≤ 26)
  | 4 => decide (i ≤ 27)
  | 5 => decide (i ≤ 26)
  | 6 => decide (16 ≤ i ∧ i ≤ 27)
  | 7 => decide (i ≤ 27)
  | 8 => decide (1 ≤ i ∧ i ≤ 27)
  | 9 => decide (i ≤ 27)
  | 10 => decide (i ≤ 27)
  | 11 => decide ((21 ≤ i ∧ i ≤ 27) ∨ i ≤ 15)
  | _ => false

/-- A packet is no command (R77): a reserved opcode, a 1 in a reserved header bit, `POS` without `P`, or a length that
differs from the expected one. -/
def packetIllegal (p : Packet) : Prop :=
  let op := p.header.toNat / 2 ^ 28
  op = 0 ∨ 12 ≤ op ∨ (∃ i, reservedBit op i = true ∧ p.header.getLsbD i = true) ∨
    (op ∈ [1, 2, 3] ∧ p.header.getLsbD 27 = false ∧ p.header.toNat % 2 ^ 16 ≠ 0) ∨ p.length ≠ expectedLength p

end Sys2Proof.Machine
end

