-- ==== Sys2Proof/Certificates/Slice0/Obligations.lean ====
section
/-! DEFINITION. The statements for the provers. Each docstring names the rule of the spec it formalises. -/

open Sys2Proof Sys2Proof.Machine

/-! ### Packets (30_encoding.md) -/

/-- R60 to R76: the packet of a well-formed command decodes to that command, with every operand, and has the length
R76 gives. -/
def Obligations.EncodedCommandDecodesBack : Prop :=
  ∀ i : Instr, i.wf = true → decode (encode i) = .ok i ∧ (encode i).length = expectedLength (encode i)

/-- R60 to R77: a packet that decodes is well-formed and is exactly the packet of what it decodes to, so no two packets
stand for one command and no bit of a packet is ignored. -/
def Obligations.DecodedPacketEncodesBack : Prop :=
  ∀ (p : Packet) (i : Instr), decode p = .ok i → i.wf = true ∧ encode i = p

/-- R80: under CFG_S, whose field 0 has 3 bits and field 1 has 5, the line `addg f0=6, f1=3` is the packet of the worked
encoding, and that packet decodes to the two records. -/
def Obligations.WorkedEncodingOfAddg : Prop :=
  decode ⟨0x10020000, [0x00000003, 0x00000006, 0x00010005, 0x00000003]⟩ =
      .ok (.addg none false false [⟨0, 3, [6]⟩, ⟨1, 5, [3]⟩]) ∧
    ∀ (c : Config) (n0 n1 : String), c.gfields = [⟨n0, 0, 3, false⟩, ⟨n1, 3, 5, false⟩] →
      (assemble c (.addg false false none [⟨0, none, 6⟩, ⟨1, none, 3⟩])).map encode =
        some ⟨0x10020000, [0x00000003, 0x00000006, 0x00010005, 0x00000003]⟩

/-- R63 to R74: one header of each other command, written out from its layout, decodes to the command. -/
def Obligations.HeaderLayoutsDecode : Prop :=
  decode ⟨0b00101000000000000000000000000011, [8, 0xA5]⟩ = .ok (.addp (some 3) 8 [0xA5]) ∧
  decode ⟨0b00110000000000000000000000000000, [20]⟩ = .ok (.addi none 20) ∧
  decode ⟨0b01000000000000000000000000000000, []⟩ = .ok .compile ∧
  decode ⟨0b01011000000000000000000000000000, [0x10]⟩ = .ok (.reset (some 0x10)) ∧
  decode ⟨0b01100000000000001000000000000001, []⟩ = .ok (.exec 0x8001) ∧
  decode ⟨0b01110000000000000000000000000000, [100]⟩ = .ok (.wait 100) ∧
  decode ⟨0b10000000000000000000000000000001, []⟩ = .ok (.decode true) ∧
  decode ⟨0b10010000000000000000000000000000, []⟩ = .ok .rstout ∧
  decode ⟨0b10100000000000000000000000000000, []⟩ = .ok .status ∧
  decode ⟨0b10110000000100100000000000000000, [50, 8]⟩ = .ok (.rdtrk 18 50 8)

/-- R77: a packet is no command exactly when its opcode is reserved, a reserved header bit is 1, `POS` stands without
`P`, or its length is wrong; and then the step answers `IllegalCommand` with context 0, track 0xFF and value `H`, and
nothing else happens. -/
def Obligations.IllegalPacketRaisesIllegalCommand : Prop :=
  (∀ p : Packet, packetIllegal p ↔ ∃ e, decode p = .error e) ∧
  ∀ (s : State) (p : Packet) (rest : List Packet),
    s.cfg.wf = true → s.cmds = p :: rest → packetIllegal p →
      step s = .next { s with cmds := rest, rsps := s.rsps ++ [[0x0000FF01, p.header]] }

/-! ### The step -/

/-- R30, R60: when the packet at the command port decodes to `i`, the step takes the packet and runs `i`. -/
def Obligations.StepRunsTheDecodedCommand : Prop :=
  ∀ (s : State) (p : Packet) (rest : List Packet) (i : Instr),
    s.cfg.wf = true → s.cmds = p :: rest → decode p = .ok i → step s = exec i { s with cmds := rest }

/-- R5: a configuration that breaks a constraint is refused. With no packet waiting nothing changes (the model's
choice, log 5). -/
def Obligations.StepWithoutACommand : Prop :=
  (∀ s : State, s.cfg.wf = false → step s = .refused .badConfiguration) ∧
  ∀ s : State, s.cfg.wf = true → s.cmds = [] → step s = .next s

/-- R184: every packet gets exactly one response: an error's two words, or the status word 0 and the number of result
words its command has. -/
def Obligations.EveryPacketGetsOneResponse : Prop :=
  ∀ (s : State) (p : Packet) (rest : List Packet), Inv s → s.cmds = p :: rest →
    ∃ (t : State) (r : Response), step s = .next t ∧ t.cmds = rest ∧ t.rsps = s.rsps ++ [r] ∧
      ((∃ e : Err, e.code.code ≠ 0 ∧ r = [e.ctx ++ e.trk ++ e.code.code, e.val]) ∨
       ∃ (i : Instr) (results : List Word),
         decode p = .ok i ∧ r = 0 :: results ∧ results.length = resultCount s i)

/-- R185, R189: a command that answers with an error leaves every element of `S` unchanged. -/
def Obligations.ErrorLeavesTheStateUnchanged : Prop :=
  ∀ (i : Instr) (s t : State) (e : Err),
    exec i s = .next t → t.rsps = s.rsps ++ [e.words] → t.tuple = s.tuple

/-- R21, R23 to R27, R40, R46, R50: only the commands the spec names write each element: the queue, GSNAP, LENREG, the
tracks, and each flag in each direction. No command writes the configuration or the command port. The clauses on the
transport and the FIFO (with `drained`) rest on the model's own reading of when the agents move: at the port calls of
EXEC, WAIT, DECODE and RSTOUT and nowhere else (log 8, log 20). -/
def Obligations.OnlyNamedCommandsWriteEachElement : Prop :=
  ∀ (i : Instr) (s t : State), exec i s = .next t →
    t.cfg = s.cfg ∧ t.cmds = s.cmds ∧
    (t.queue ≠ s.queue → (∃ pl ld mg rs, i = .addg pl ld mg rs) ∨ (∃ pl l ws, i = .addp pl l ws) ∨
      (∃ pl d, i = .addi pl d) ∨ ∃ m, i = .reset m) ∧
    (t.gsnap ≠ s.gsnap → ∃ pl ld mg rs, i = .addg pl ld mg rs) ∧
    (t.lenreg ≠ s.lenreg → i = .compile ∨ ∃ m, i = .reset m) ∧
    (t.tracks ≠ s.tracks → i = .compile ∨ ∃ m, i = .reset m) ∧
    (s.busy = false → t.busy = true → ∃ rep, i = .exec rep) ∧
    (s.busy = true → t.busy = false → ∃ n, i = .wait n) ∧
    (s.compiled = false → t.compiled = true → i = .compile) ∧
    (s.compiled = true → t.compiled = false → (∃ pl ld mg rs, i = .addg pl ld mg rs) ∨ (∃ pl l ws, i = .addp pl l ws) ∨
      (∃ pl d, i = .addi pl d) ∨ ∃ m, i = .reset m) ∧
    (s.consumed = false → t.consumed = true → ∃ inv, i = .decode inv) ∧
    (s.consumed = true → t.consumed = false → i = .rstout) ∧
    (t.xport ≠ s.xport → (∃ rep, i = .exec rep) ∨ ∃ n, i = .wait n) ∧
    (t.fifo ≠ s.fifo → (∃ rep, i = .exec rep) ∨ (∃ n, i = .wait n) ∨ (∃ inv, i = .decode inv) ∨ i = .rstout) ∧
    (t.drained ≠ s.drained → (∃ rep, i = .exec rep) ∨ i = .rstout)

/-- R186: while BUSY is 1 the eight commands are refused with `ExecBusy` (context QLEN, track 0xFF, value the opcode),
and WAIT, STATUS and RDTRK never are. -/
def Obligations.BusyRefusesEightCommands : Prop :=
  (∀ (i : Instr) (s : State), s.busy = true → busyRefuses i = true →
    exec i s = .next { s with rsps :=
      s.rsps ++ [[BitVec.ofNat 16 s.queue.length ++ 0xFF12#16, BitVec.ofNat 32 i.opcode]] }) ∧
  ∀ (i : Instr) (s t : State) (ctx : BitVec 16) (val : Word), busyRefuses i = false →
    exec i s = .next t → t.rsps ≠ s.rsps ++ [[ctx ++ 0xFF12#16, val]]

/-! ### Builder commands (40_builder.md) -/

/-- R90: with BUSY 0, a position beyond the queue raises `BadPosition`, and else a full queue raises `QueueFull`, for
each builder command, whatever its other operands. -/
def Obligations.BuilderPlacementErrors : Prop :=
  ∀ (pl : Placement) (s : State) (i : Instr), s.busy = false →
    ((∃ ld mg rs, i = .addg pl ld mg rs) ∨ (∃ l ws, i = .addp pl l ws) ∨ ∃ d, i = .addi pl d) →
    (∀ pos, pl = some pos → s.queue.length < pos.toNat →
      exec i s = .next { s with rsps :=
        s.rsps ++ [[BitVec.ofNat 16 s.queue.length ++ 0xFF06#16, pos.setWidth 32]] }) ∧
    (placeIndex pl s ≤ s.queue.length → s.queue.length = s.cfg.qmax → s.cfg.qmax < 2 ^ 32 →
      exec i s = .next { s with rsps :=
        s.rsps ++ [[BitVec.ofNat 16 s.queue.length ++ 0xFF07#16, BitVec.ofNat 32 s.cfg.qmax]] })

/-- R91, R95, R96: ADDG with valid records completes: it places one Global block with the four patterns of R95, makes
the image GSNAP, clears COMPILED, answers the index, and changes nothing else. Each bit of the image comes from the
last record that names its field, most significant bit first, else from GSNAP (`MG = 1`) or G0. -/
def Obligations.AddgBuildsTheGlobalBlock : Prop :=
  ∀ (s : State) (pl : Placement) (ld mg : Bool) (rs : List FieldRecord),
    Inv s → builderAdmits pl s = true → rs.all (recordOk s.cfg) = true →
    ∃ img : Bits, img.length = s.cfg.globalWidth ∧
      (∀ p < s.cfg.globalWidth,
        img.getD p false = recordsBit s.cfg rs (if mg then s.gsnap else baseImage s.cfg) p) ∧
      exec (.addg pl ld mg rs) s = .next { s with
        queue := s.queue.take (placeIndex pl s) ++
          ⟨.global, s.cfg.globalWidth + 2,
            [(0, phys s.cfg img ++ [false, false]),
             (1, List.replicate s.cfg.globalWidth true ++ [false, false]),
             (2, List.replicate (s.cfg.globalWidth + 1) false ++ [true]),
             (3, List.replicate (s.cfg.globalWidth + 1) false ++ [ld])]⟩ :: s.queue.drop (placeIndex pl s),
        gsnap := img,
        compiled := false,
        rsps := s.rsps ++ [[0, BitVec.ofNat 32 (placeIndex pl s)]] }

/-- R96, R187: the first record that is not valid ends ADDG: `UnknownField`, then `PatternLength`, then `ValueRange`,
with the record word, and nothing else changes. -/
def Obligations.AddgRefusesTheFirstBadRecord : Prop :=
  ∀ (s : State) (pl : Placement) (ld mg : Bool) (good : List FieldRecord) (r : FieldRecord) (rest : List FieldRecord),
    builderAdmits pl s = true → good.all (recordOk s.cfg) = true → recordOk s.cfg r = false →
    exec (.addg pl ld mg (good ++ r :: rest)) s = .next { s with rsps := s.rsps ++
      [[BitVec.ofNat 16 (placeIndex pl s) ++ 0x00#8 ++
          (match s.cfg.gfields[r.fid.toNat]? with
            | none => 0x05#8
            | some f => if r.len.toNat = f.width then 0x04#8 else 0x03#8),
        r.fid ++ r.len]] }

/-- R91, R97: ADDP with a pattern of `PIXEL_WIDTH` bits completes: it places one Pixel block whose SHIFT_IN pattern is
the value, most significant bit first and not reversed, and whose SHIFT_EN is high throughout. -/
def Obligations.AddpBuildsThePixelBlock : Prop :=
  ∀ (s : State) (pl : Placement) (len : Word) (ws : List Word),
    Inv s → builderAdmits pl s = true → len.toNat = s.cfg.pixelWidth → beInt ws < 2 ^ s.cfg.pixelWidth →
    ∃ b : Bits, b.length = s.cfg.pixelWidth ∧
      (∀ j < s.cfg.pixelWidth, b.getD j false = (beInt ws).testBit (s.cfg.pixelWidth - 1 - j)) ∧
      exec (.addp pl len ws) s = .next { s with
        queue := s.queue.take (placeIndex pl s) ++
          ⟨.pixel, s.cfg.pixelWidth, [(0, b), (1, List.replicate s.cfg.pixelWidth true)]⟩ ::
            s.queue.drop (placeIndex pl s),
        compiled := false,
        rsps := s.rsps ++ [[0, BitVec.ofNat 32 (placeIndex pl s)]] }

/-- R97, R187: ADDP with another length raises `PatternLength` with `LEN`, and else a value that does not fit raises
`ValueRange` with `P[1]`. -/
def Obligations.AddpRefusesABadPattern : Prop :=
  ∀ (s : State) (pl : Placement) (len : Word) (ws : List Word), builderAdmits pl s = true →
    (len.toNat ≠ s.cfg.pixelWidth → exec (.addp pl len ws) s = .next { s with rsps := s.rsps ++
      [[BitVec.ofNat 16 (placeIndex pl s) ++ 0x0003#16, len]] }) ∧
    ∀ (w : Word) (rest : List Word), ws = w :: rest →
      len.toNat = s.cfg.pixelWidth → 2 ^ s.cfg.pixelWidth ≤ beInt ws →
      exec (.addp pl len ws) s = .next { s with rsps := s.rsps ++
        [[BitVec.ofNat 16 (placeIndex pl s) ++ 0x0004#16, w]] }

/-- R91, R98: ADDI with a delay of at most `L_INJECT` completes: it places one Inject block, `d` low bits and then high
bits on INJECTION alone. -/
def Obligations.AddiBuildsTheInjectBlock : Prop :=
  ∀ (s : State) (pl : Placement) (d : Word),
    Inv s → builderAdmits pl s = true → d.toNat ≤ s.cfg.lInject →
    exec (.addi pl d) s = .next { s with
      queue := s.queue.take (placeIndex pl s) ++
        ⟨.inject, s.cfg.lInject,
          [(4, List.replicate d.toNat false ++ List.replicate (s.cfg.lInject - d.toNat) true)]⟩ ::
            s.queue.drop (placeIndex pl s),
      compiled := false,
      rsps := s.rsps ++ [[0, BitVec.ofNat 32 (placeIndex pl s)]] }

/-- R98: a delay above `L_INJECT` raises `InjectDelay` with the block index, track 4 and the delay. -/
def Obligations.AddiRefusesALongDelay : Prop :=
  ∀ (s : State) (pl : Placement) (d : Word), builderAdmits pl s = true → s.cfg.lInject < d.toNat →
    exec (.addi pl d) s = .next { s with rsps := s.rsps ++
      [[BitVec.ofNat 16 (placeIndex pl s) ++ 0x0402#16, d]] }

/-- R93: each bit of the base image is the debug pattern in an empty field and 0 in any other. -/
def Obligations.BaseImageOfTheFields : Prop :=
  ∀ c : Config, c.wf = true → (baseImage c).length = c.globalWidth ∧
    ∀ f ∈ c.gfields, ∀ j < f.width,
      (baseImage c).getD (f.offset + j) false =
        if f.empty then c.debugUnit.getD (j % c.debugUnit.length) false else false

/-- R94: `phys` reverses each field in place, is its own inverse, and puts bit `j` of an MSB-first field value at
`o + j`. -/
def Obligations.ShiftImageReversesEachField : Prop :=
  ∀ (c : Config) (img : Bits), c.wf = true → img.length = c.globalWidth →
    (phys c img).length = c.globalWidth ∧
    (∀ f ∈ c.gfields, ∀ j < f.width,
      (phys c img).getD (f.offset + j) false = img.getD (f.offset + f.width - 1 - j) false) ∧
    phys c (phys c img) = img ∧
    ∀ f ∈ c.gfields, ∀ x : Nat,
      (∀ j < f.width, img.getD (f.offset + j) false = x.testBit (f.width - 1 - j)) →
        ∀ j < f.width, (phys c img).getD (f.offset + j) false = x.testBit j

/-! ### Sequencing commands (41_sequencing.md) -/

/-- R120 to R126: COMPILE of a queue that fits completes: LENREG and the response are `total`, COMPILED is 1, the queue
stays, each block's patterns stand at its start offset, INJECTION is high over the rest of `[0, total)`, and every
other track bit is as it was. -/
def Obligations.CompileLaysOutTheQueue : Prop :=
  ∀ s : State, Inv s → s.busy = false → s.queue ≠ [] → totalOf s.cfg s.queue ≤ s.cfg.trackLen →
    ∃ m : Memory, m.wf s.cfg = true ∧
      exec .compile s = .next { s with
        tracks := m,
        lenreg := BitVec.ofNat 32 (totalOf s.cfg s.queue),
        compiled := true,
        rsps := s.rsps ++ [[0, BitVec.ofNat 32 (totalOf s.cfg s.queue)]] } ∧
      (∀ (i : Nat) (b : Block), s.queue[i]? = some b → ∀ k v, (k, v) ∈ b.pat → ∀ j < b.len,
        m.bit k (startOf s.cfg s.queue i + j) = v.getD j false) ∧
      (∀ t < totalOf s.cfg s.queue,
        (∀ i, inBlock s.cfg s.queue i t → ¬ definesTrack s.queue i 4) → m.bit 4 t = true) ∧
      ∀ k t, (k = 4 → totalOf s.cfg s.queue ≤ t) →
        (∀ i, inBlock s.cfg s.queue i t → ¬ definesTrack s.queue i k) → m.bit k t = s.tracks.bit k t

/-- R121, R122, R125: in COMPILE's own layout each block of the queue has one place, no earlier than the lead-in; it ends
40 bits before the next block's place or earlier, and 40 bits before the length of the stream or earlier. -/
def Obligations.BlocksNeverOverlap : Prop :=
  ∀ (c : Config) (q : List Block),
    (placeBlocks (leadIn c q) q).map Prod.snd = q ∧
    ∀ (i st : Nat) (b : Block), (placeBlocks (leadIn c q) q)[i]? = some (st, b) →
      leadIn c q ≤ st ∧ st + b.len + 40 ≤ streamLength c q ∧
      ∀ (j st' : Nat) (b' : Block), i < j → (placeBlocks (leadIn c q) q)[j]? = some (st', b') →
        st + b.len + 40 ≤ st'

/-- R120, R123: with BUSY 0, an empty queue raises `EmptyQueue`, and a stream longer than the tracks raises
`StreamOverflow`; nothing is written. -/
def Obligations.CompileRefusals : Prop :=
  ∀ s : State, s.busy = false →
    (s.queue = [] → exec .compile s = .next { s with rsps := s.rsps ++ [[0x0000FF10, 0]] }) ∧
    (s.queue ≠ [] → s.cfg.trackLen < totalOf s.cfg s.queue →
      exec .compile s = .next { s with rsps := s.rsps ++
        [[BitVec.ofNat 16 s.queue.length ++ 0xFF0A#16,
          BitVec.ofNat 32 (min (totalOf s.cfg s.queue) (2 ^ 32 - 1))]] })

/-- R127: COMPILE does not empty the queue, and a second COMPILE with no command between the two writes the same bits
to the same places, so it changes nothing, and returns the same total. -/
def Obligations.RecompileRepeatsTheStream : Prop :=
  ∀ s t : State, Inv s → s.busy = false → s.queue ≠ [] → totalOf s.cfg s.queue ≤ s.cfg.trackLen →
    exec .compile s = .next t →
    t.queue = s.queue ∧ t.rsps = s.rsps ++ [[0, BitVec.ofNat 32 (totalOf s.cfg s.queue)]] ∧
      exec .compile t = .next { t with rsps := t.rsps ++ [[0, BitVec.ofNat 32 (totalOf s.cfg s.queue)]] }

/-- R129: RESET clears the selected tracks and no other, empties the queue, sets LENREG and COMPILED to 0, and changes
nothing else. -/
def Obligations.ResetClearsTheSelectedTracks : Prop :=
  ∀ (s : State) (mask : Option Word), Inv s → s.busy = false →
    (∀ m, mask = some m → ∀ k, m.getLsbD k = true → k < s.cfg.ntracks) →
    ∃ T : Memory, T.wf s.cfg = true ∧
      exec (.reset mask) s = .next { s with
        tracks := T, queue := [], lenreg := 0, compiled := false, rsps := s.rsps ++ [[0]] } ∧
      ∀ k t, T.bit k t =
        if mask = none ∨ ∃ m, mask = some m ∧ m.getLsbD k = true then false else s.tracks.bit k t

/-- R129: a mask bit at or above `NTRACKS` raises `BadTrack` with the mask, and nothing changes. -/
def Obligations.ResetRefusesABadMask : Prop :=
  ∀ (s : State) (m : Word) (k : Nat), s.busy = false → s.cfg.ntracks ≤ k → m.getLsbD k = true →
    exec (.reset (some m)) s = .next { s with rsps := s.rsps ++ [[0x0000FF08, m]] }

/-- R52, R130, R194: EXEC of a compiled stream whose three transport calls do not fail completes: the transport holds
`LENREG` vectors with bit `k` of `V[t]` equal to `T[k][t]`, the length and the repeat count, and plays for ever when
REPEAT is 0 and for some number of polls otherwise (log 19); BUSY is 1, and of the SCD's own state nothing else changes.
The FIFO takes words from now on, and has grown at its end only if an earlier failed EXEC had left the transport playing
(the model's reading, log 8). -/
def Obligations.ExecHandsTheStreamOver : Prop :=
  ∀ (s : State) (rep : BitVec 16), Inv s → s.busy = false → s.compiled = true →
    answerFailed s.portCall.1 = false → answerFailed s.portCall.2.portCall.1 = false →
    answerFailed s.portCall.2.portCall.2.portCall.1 = false →
    ∃ (t : State) (ws : List Word), exec (.exec rep) s = .next t ∧
      t = { s with busy := true, xport := t.xport, fifo := s.fifo ++ ws, drained := false, env := t.env,
                   rsps := s.rsps ++ [[0]] } ∧
      (s.fifoQuiet = true → ws = []) ∧
      t.xport.stream.length = s.lenreg.toNat ∧
      (∀ i < s.lenreg.toNat, (t.xport.stream.getD i []).length = s.cfg.ntracks ∧
        ∀ k < s.cfg.ntracks, (t.xport.stream.getD i []).getD k false = s.tracks.bit k i) ∧
      t.xport.totalLength = s.lenreg ∧ t.xport.repeatCount = rep ∧
      (rep = 0 → t.xport.phase = .endless) ∧ (rep ≠ 0 → ∃ n, t.xport.phase = .running n)

/-- R130: EXEC without a compile raises `NotCompiled` and changes nothing; the first transport call that fails raises
`TransportError` with its number, and only the transport, the FIFO (with `drained`, log 8) and the agents' schedule may
have changed. -/
def Obligations.ExecRefusals : Prop :=
  ∀ (s : State) (rep : BitVec 16), s.busy = false →
    (s.compiled = false → exec (.exec rep) s = .next { s with rsps := s.rsps ++
      [[BitVec.ofNat 16 s.queue.length ++ 0xFF13#16, 0]] }) ∧
    (s.compiled = true → answerFailed s.portCall.1 = true →
      ∃ t, exec (.exec rep) s = .next t ∧
        t = { s with xport := t.xport, fifo := t.fifo, drained := t.drained, env := t.env,
                     rsps := s.rsps ++ [[0x0001FF22, 0]] }) ∧
    (s.compiled = true → answerFailed s.portCall.1 = false → answerFailed s.portCall.2.portCall.1 = true →
      ∃ t, exec (.exec rep) s = .next t ∧
        t = { s with xport := t.xport, fifo := t.fifo, drained := t.drained, env := t.env,
                     rsps := s.rsps ++ [[0x0002FF22, rep.setWidth 32]] }) ∧
    (s.compiled = true → answerFailed s.portCall.1 = false → answerFailed s.portCall.2.portCall.1 = false →
      answerFailed s.portCall.2.portCall.2.portCall.1 = true →
      ∃ t, exec (.exec rep) s = .next t ∧
        t = { s with xport := t.xport, fifo := t.fifo, drained := t.drained, env := t.env,
                     rsps := s.rsps ++ [[0x0003FF22, 0]] })

/-- R131: WAIT with `NPOLL = 0` raises `BadTimeout`, and with BUSY 0 it answers 0 polls at once. -/
def Obligations.WaitWithoutAPoll : Prop :=
  (∀ s : State, exec (.wait 0) s = .next { s with rsps := s.rsps ++ [[0x0000FF0B, 0]] }) ∧
  ∀ (s : State) (n : Word), n ≠ 0 → s.busy = false →
    exec (.wait n) s = .next { s with rsps := s.rsps ++ [[0, 0]] }

/-- R131, R194: when the transport answers false to `k < NPOLL` polls and none of the first `k + 1` polls fails, WAIT
completes at poll `k + 1`: it answers `k + 1` and clears BUSY; the FIFO may have grown at its end, and of the SCD's own
state nothing else changes. -/
def Obligations.WaitSeesTheExecutionFinish : Prop :=
  ∀ (s : State) (n : Word) (k : Nat), s.busy = true → s.xport.phase = .running k → k < n.toNat →
    (∀ i ≤ k, pollCompletes s i) →
    ∃ (t : State) (ws : List Word), exec (.wait n) s = .next t ∧
      t = { s with busy := false, xport := { s.xport with phase := .finished }, fifo := s.fifo ++ ws,
                   env := t.env, rsps := s.rsps ++ [[0, BitVec.ofNat 32 (k + 1)]] }

/-- R131, R218: when no poll fails and the execution needs more than NPOLL polls or never ends, WAIT raises `TimedOut`
with NPOLL and leaves BUSY at 1. -/
def Obligations.WaitTimesOut : Prop :=
  ∀ (s : State) (n : Word), n ≠ 0 → s.busy = true → (∀ i < n.toNat, pollCompletes s i) →
    (∀ k, s.xport.phase = .running k → n.toNat ≤ k →
      ∃ (t : State) (ws : List Word), exec (.wait n) s = .next t ∧
        t = { s with xport := { s.xport with phase := .running (k - n.toNat) }, fifo := s.fifo ++ ws,
                     env := t.env, rsps := s.rsps ++ [[0x0000FF20, n]] }) ∧
    (s.xport.phase = .endless →
      ∃ (t : State) (ws : List Word), exec (.wait n) s = .next t ∧
        t = { s with fifo := s.fifo ++ ws, env := t.env, rsps := s.rsps ++ [[0x0000FF20, n]] })

/-- R131: a poll that fails before the execution is seen to finish ends WAIT with `TransportError`, context 4 and the
poll's number; only the transport's phase, the FIFO and the agents' schedule may have changed. -/
def Obligations.WaitReportsAFailedPoll : Prop :=
  ∀ (s : State) (n : Word) (i : Nat), s.busy = true → i < n.toNat →
    (s.xport.phase = .endless ∨ ∃ k, s.xport.phase = .running k ∧ i ≤ k) →
    (∀ j < i, pollCompletes s j) → ¬ pollCompletes s i →
    ∃ t, exec (.wait n) s = .next t ∧
      t = { s with xport := { s.xport with phase := t.xport.phase }, fifo := t.fifo, env := t.env,
                   rsps := s.rsps ++ [[0x0004FF22, BitVec.ofNat 32 (i + 1)]] }

/-- R218: once an execution with `REPEAT = 0` runs, no step ends it or changes the state `S`: BUSY stays 1. -/
def Obligations.EndlessExecutionKeepsBusy : Prop :=
  ∀ s t : State, s.busy = true → s.xport.phase = .endless → step s = .next t →
    t.busy = true ∧ t.xport.phase = .endless ∧ t.tuple = s.tuple

/-- R47, R49: a step that starts with BUSY 1 leaves the stream, the length and the repeat count the transport holds, and
the tracks, the queue and LENREG, as they are. -/
def Obligations.RunningStreamIsNotChanged : Prop :=
  ∀ s t : State, s.busy = true → step s = .next t →
    t.xport.stream = s.xport.stream ∧ t.xport.totalLength = s.xport.totalLength ∧
    t.xport.repeatCount = s.xport.repeatCount ∧ t.tracks = s.tracks ∧ t.queue = s.queue ∧ t.lenreg = s.lenreg

/-! ### Readout commands (42_readout.md) -/

/-- R150 to R154: DECODE of an unread FIFO whose calls complete succeeds. With the `n` words that the FIFO holds at the
count, `out[16 i + j]` is bit `15 - j` of word `i`, complemented when `INV = 1`; CONSUMED is 1, and of the SCD's own state
nothing else changes. The model's own readings: the FIFO keeps its words (log 12), and it has more words than before only
if a failed EXEC left the transport playing (log 8). -/
def Obligations.DecodeAnswersTheFifoBits : Prop :=
  ∀ (s : State) (inv : Bool), s.busy = false → s.consumed = false → answerFailed s.portCall.1 = false →
    (∃ rd, answerWords s.portCall.2.portCall.2.fifo s.portCall.2.portCall.1 = some rd ∧
      s.portCall.2.fifo.length ≤ rd.length) →
    let words := s.portCall.2.fifo
    ∃ (t : State) (ws : List Word) (nbits : Word) (out : Bits), exec (.decode inv) s = .next t ∧
      t = { s with consumed := true, fifo := s.fifo ++ ws, env := t.env,
                   rsps := s.rsps ++ [0 :: nbits :: pack32 out] } ∧
      (s.fifoQuiet = true → ws = [] ∧ words = s.fifo) ∧
      (16 * words.length < 2 ^ 32 → nbits = BitVec.ofNat 32 (16 * words.length)) ∧
      out.length = 16 * words.length ∧
      ∀ i < words.length, ∀ j < 16,
        out.getD (16 * i + j) false = Bool.xor inv ((words.getD i 0).getLsbD (15 - j))

/-- R155: a successful DECODE answers the status word, `NBITS = 16 n`, and `ceil32(NBITS)` data words, word `m` made of
the low halves of words `2m` and `2m + 1`, complemented when `INV = 1`; the unused half of an odd last word is 0. -/
def Obligations.DecodeResponseWords : Prop :=
  ∀ (s : State) (inv : Bool), s.busy = false → s.consumed = false → answerFailed s.portCall.1 = false →
    (∃ rd, answerWords s.portCall.2.portCall.2.fifo s.portCall.2.portCall.1 = some rd ∧
      s.portCall.2.fifo.length ≤ rd.length) →
    let words := s.portCall.2.fifo
    16 * words.length < 2 ^ 32 →
    ∃ (t : State) (data : List Word), exec (.decode inv) s = .next t ∧
      t.rsps = s.rsps ++ [0 :: BitVec.ofNat 32 (16 * words.length) :: data] ∧
      data.length = ceil32 (16 * words.length) ∧
      ∀ m < data.length,
        let half := fun i : Nat =>
          if i < words.length then
            (if inv then ~~~ (words.getD i 0).setWidth 16 else (words.getD i 0).setWidth 16)
          else 0#16
        data.getD m 0 = half (2 * m) ++ half (2 * m + 1)

/-- R151, R154, R185: DECODE of a read buffer raises `ReadoutConsumed` and makes no FIFO call; a failed count raises
`FifoRead` with context 1; a failed or short read raises it with context 2 and the count. The model's own readings: a
FIFO call that fails removes no word (log 10), and the FIFO has more words than before only if a failed EXEC left the
transport playing (log 8). Else only the agents' schedule changes. -/
def Obligations.DecodeRefusals : Prop :=
  ∀ (s : State) (inv : Bool), s.busy = false →
    (s.consumed = true → exec (.decode inv) s = .next { s with rsps := s.rsps ++ [[0x0000FF11, 0]] }) ∧
    (s.consumed = false → answerFailed s.portCall.1 = true →
      ∃ t ws, exec (.decode inv) s = .next t ∧ (s.fifoQuiet = true → ws = []) ∧
        t = { s with fifo := s.fifo ++ ws, env := t.env, rsps := s.rsps ++ [[0x0001FF21, 0]] }) ∧
    (s.consumed = false → answerFailed s.portCall.1 = false → s.portCall.2.fifo.length < 2 ^ 32 →
      (∀ rd, answerWords s.portCall.2.portCall.2.fifo s.portCall.2.portCall.1 = some rd →
        rd.length < s.portCall.2.fifo.length) →
      ∃ t ws, exec (.decode inv) s = .next t ∧ (s.fifoQuiet = true → ws = []) ∧
        t = { s with fifo := s.fifo ++ ws, env := t.env,
                     rsps := s.rsps ++ [[0x0002FF21, BitVec.ofNat 32 s.portCall.2.fifo.length]] })

/-- R157: RSTOUT whose call does not fail completes: the FIFO is empty, CONSUMED is 0, and of the SCD's own state nothing
else changes (`drained` records it, log 8). A failed call raises `FifoRead` with context 3; the model's own readings are
that it removes no word (log 10), and that the FIFO has more words than before only if a failed EXEC left the transport
playing (log 8). Else only the agents' schedule changes. -/
def Obligations.RstoutEmptiesTheFifo : Prop :=
  ∀ s : State, s.busy = false →
    (answerFailed s.portCall.1 = false → ∃ t, exec .rstout s = .next t ∧
      t = { s with fifo := [], consumed := false, drained := true, env := t.env, rsps := s.rsps ++ [[0]] }) ∧
    (answerFailed s.portCall.1 = true → ∃ t ws, exec .rstout s = .next t ∧ (s.fifoQuiet = true → ws = []) ∧
      t = { s with fifo := s.fifo ++ ws, env := t.env, rsps := s.rsps ++ [[0x0003FF21, 0]] })

/-- R197: after an RSTOUT whose call does not fail, the FIFO is empty after every run of commands without an EXEC. Beside
it the model's own reading, step by step (log 8): an empty FIFO stays empty under every command but EXEC while an RSTOUT
stands (`drained`) or the transport plays nothing. -/
def Obligations.FifoStaysEmptyUntilExec : Prop :=
  (∀ (s t u : State) (is : List Instr), s.busy = false → answerFailed s.portCall.1 = false →
    exec .rstout s = .next t → (∀ i ∈ is, ∀ rep, i ≠ .exec rep) → runCommands is t = .next u → u.fifo = []) ∧
  ∀ (i : Instr) (s t : State), s.fifo = [] → s.fifoQuiet = true → (∀ rep, i ≠ .exec rep) →
    exec i s = .next t → t.fifo = [] ∧ t.fifoQuiet = true

/-- R192, R197: words reach the FIFO while the transport plays, unless an RSTOUT stands: at the next port call the words
scheduled next are appended, whatever BUSY is, so also where a failed EXEC left the transport playing (U7). Where the
transport plays nothing or an RSTOUT stands, none are. That words arrive at the port calls is the model's reading
(log 8). -/
def Obligations.PlayingTransportFillsTheFifo : Prop :=
  ∀ s : State,
    (phasePlaying s.xport.phase = true → s.drained = false →
      ∀ ws rest, s.env.captures = ws :: rest → s.portCall.2.fifo = s.fifo ++ ws) ∧
    (phasePlaying s.xport.phase = false ∨ s.drained = true → s.portCall.2.fifo = s.fifo)

/-! ### Query commands (43_query.md) -/

/-- R28, R170: STATUS always completes: bit 0 is BUSY, bit 1 COMPILED, bit 2 CONSUMED, bits 3 to 15 are 0, bits 16 to 31
are QLEN, and the second word is LENREG; nothing changes. -/
def Obligations.StatusAnswersFlagsAndLength : Prop :=
  ∀ s : State, ∃ w : Word, exec .status s = .next { s with rsps := s.rsps ++ [[0, w, s.lenreg]] } ∧
    w.getLsbD 0 = s.busy ∧ w.getLsbD 1 = s.compiled ∧ w.getLsbD 2 = s.consumed ∧
    (∀ i, 3 ≤ i → i ≤ 15 → w.getLsbD i = false) ∧
    (s.queue.length < 2 ^ 16 → w.toNat / 2 ^ 16 = s.queue.length)

/-- R171: RDTRK of a range inside a track completes: bit `31 - j` of data word `m` is `T[TRK][START + 32 m + j]`, and 0
past COUNT; nothing changes, and BUSY does not matter. -/
def Obligations.RdtrkAnswersTheRange : Prop :=
  ∀ (s : State) (trk : BitVec 5) (start count : Word), s.tracks.wf s.cfg = true →
    trk.toNat < s.cfg.ntracks → start.toNat + count.toNat ≤ s.cfg.trackLen →
    ∃ data : List Word,
      exec (.rdtrk trk start count) s = .next { s with rsps := s.rsps ++ [0 :: data] } ∧
      data.length = ceil32 count.toNat ∧
      ∀ m < data.length, ∀ j < 32, (data.getD m 0).getLsbD (31 - j) =
        if 32 * m + j < count.toNat then s.tracks.bit trk.toNat (start.toNat + 32 * m + j) else false

/-- R171: a track that does not exist raises `BadTrack`, and else a range beyond the track raises `RangeError`, the sum
not wrapped; nothing changes. -/
def Obligations.RdtrkRefusals : Prop :=
  ∀ (s : State) (trk : BitVec 5) (start count : Word),
    (s.cfg.ntracks ≤ trk.toNat → exec (.rdtrk trk start count) s = .next { s with rsps := s.rsps ++
      [[0x0000#16 ++ trk.setWidth 8 ++ 0x08#8, trk.setWidth 32]] }) ∧
    (trk.toNat < s.cfg.ntracks → s.cfg.trackLen < start.toNat + count.toNat →
      exec (.rdtrk trk start count) s = .next { s with rsps := s.rsps ++
        [[0x0000#16 ++ trk.setWidth 8 ++ 0x09#8, start]] })

/-! ### The whole machine -/

/-- R20 to R27, R52, R194: every step keeps the invariant: the shapes of the tuple, that COMPILED means the tracks hold
a compile of the queue, and that BUSY means the transport plays a copy of the compiled stream and the FIFO takes words. -/
def Obligations.StepKeepsTheInvariant : Prop :=
  ∀ s t : State, Inv s → step s = .next t → Inv t

/-- R210: the state after power-on reset, under every configuration. That no packet waits is the model's choice
(log 5). -/
def Obligations.PowerOnState : Prop :=
  ∀ c : Config,
    let s := State.powerOn c
    s.cfg = c ∧ s.queue = [] ∧ s.gsnap = baseImage c ∧ s.lenreg = 0 ∧ s.busy = false ∧ s.compiled = false ∧
      s.consumed = true ∧ s.xport.phase = .idle ∧ s.cmds = []

/-- R20, R210: the power-on state of every configuration of R5 meets the invariant, and so does the reset state. -/
def Obligations.PowerOnMeetsTheInvariant : Prop :=
  (∀ c : Config, c.wf = true → Inv (State.powerOn c)) ∧ Inv State.reset

/-- R9, R75: a value that fits in `k` bits is read back from its `k` vector elements and from its `ceil32(k)` words,
first word most significant. -/
def Obligations.ValueCarriageReadsBack : Prop :=
  ∀ k x : Nat, x < 2 ^ k → vecInt (msbVec k x) = x ∧ beInt (beWords (ceil32 k) x) = x

/-- R78: a line of assembly gives a well-formed command, whose packet decodes to it; and a field written without a
length takes its field's width and carries its value. -/
def Obligations.AssembledLineIsWellFormed : Prop :=
  (∀ (c : Config) (l : AsmLine) (i : Instr), assemble c l = some i → i.wf = true ∧ decode (encode i) = .ok i) ∧
  ∀ (c : Config) (fid : BitVec 16) (f : Field) (v : Nat), c.wf = true → c.gfields[fid.toNat]? = some f →
    v < 2 ^ f.width →
    ∃ r : FieldRecord, asmRecord c ⟨fid, none, v⟩ = some r ∧ r.fid = fid ∧ beInt r.words = v ∧ recordOk c r = true
end

