-- ==== Sys2Proof/Laws/Bits.lean ====
section
/-! SUPPORT. What the helper functions of spec 00_scope.md R9 and the overwriting of R10 do. -/

namespace Sys2Proof.Machine

/-- Bit `j` of `w[hi:lo]` is bit `lo + j` of `w` (R7). -/
theorem slice_testBit (w : Word) (hi lo j : Nat) :
    (slice w hi lo).testBit j = (decide (j < hi - lo + 1) && w.getLsbD (lo + j)) := by
  rw [slice, Nat.testBit_mod_two_pow, Nat.testBit_div_two_pow]
  simp [BitVec.getLsbD, Nat.add_comm]

/-- `w[hi:lo]` is 0 exactly when no bit from `lo` to `hi` is 1. -/
theorem slice_eq_zero_iff (w : Word) (hi lo : Nat) (h : lo ≤ hi) :
    slice w hi lo = 0 ↔ ∀ i, lo ≤ i → i ≤ hi → w.getLsbD i = false := by
  constructor
  · intro e i h1 h2
    have := slice_testBit w hi lo (i - lo)
    rw [e, Nat.zero_testBit] at this
    simpa [show i - lo < hi - lo + 1 by omega, show lo + (i - lo) = i by omega] using this.symm
  · intro e
    apply Nat.eq_of_testBit_eq
    intro j
    rw [slice_testBit, Nat.zero_testBit]
    by_cases hj : j < hi - lo + 1
    · simp [hj, e (lo + j) (by omega) (by omega)]
    · simp [hj]

@[simp] theorem msbVec_length (k x : Nat) : (msbVec k x).length = k := by simp [msbVec]

theorem msbVec_getD (k x j : Nat) (h : j < k) : (msbVec k x).getD j false = x.testBit (k - 1 - j) := by
  simp [msbVec, List.getD, h]

@[simp] theorem rev_rev (v : Bits) : rev (rev v) = v := by simp [rev]

@[simp] theorem rev_length (v : Bits) : (rev v).length = v.length := by simp [rev]

@[simp] theorem pack32_length (v : Bits) : (pack32 v).length = ceil32 v.length := by simp [pack32]

theorem overwrite_length (v w : Bits) (o : Nat) (h : o + w.length ≤ v.length) :
    (overwrite v o w).length = v.length := by
  simp [overwrite]; omega

/-- Element `p` after an overwrite that lies inside: the new bit inside the range, the old one outside it (R10). -/
theorem overwrite_getD (v w : Bits) (o p : Nat) (h : o + w.length ≤ v.length) :
    (overwrite v o w).getD p false =
      if o ≤ p ∧ p < o + w.length then w.getD (p - o) false else v.getD p false := by
  simp only [overwrite, List.getD_eq_getElem?_getD]
  rcases Nat.lt_or_ge p o with h1 | h1
  · rw [List.append_assoc, List.getElem?_append_left (by simp; omega), if_neg (by omega)]
    simp [h1]
  · rcases Nat.lt_or_ge p (o + w.length) with h2 | h2
    · rw [List.append_assoc, List.getElem?_append_right (by simp; omega), if_pos ⟨h1, h2⟩,
        List.getElem?_append_left (by simp; omega)]
      congr 2
      simp; omega
    · rw [List.append_assoc, List.getElem?_append_right (by simp; omega), if_neg (by omega),
        List.getElem?_append_right (by simp; omega), List.getElem?_drop]
      congr 2
      simp; omega

/-- `vecInt` reads a vector as a number below `2 ^ |v|` (R9). -/
theorem vecInt_append (v : Bits) (b : Bool) : vecInt (v ++ [b]) = 2 * vecInt v + b.toNat := by
  simp [vecInt]

theorem vecInt_lt (v : Bits) : vecInt v < 2 ^ v.length := by
  induction v using List.reverseRecOn with
  | nil => simp [vecInt]
  | append_singleton v b ih =>
    rw [vecInt_append, List.length_append, List.length_singleton, pow_succ]
    have := Bool.toNat_le b
    omega

/-- Bit `|v| - 1 - j` of `vec_int(v)` is `v[j]`: the first element is the most significant (R9). -/
theorem vecInt_testBit (v : Bits) (j : Nat) (h : j < v.length) :
    (vecInt v).testBit (v.length - 1 - j) = v.getD j false := by
  induction v using List.reverseRecOn generalizing j with
  | nil => simp at h
  | append_singleton v b ih =>
    rw [vecInt_append]
    simp only [List.length_append, List.length_singleton] at h ⊢
    rcases Nat.lt_or_ge j v.length with hj | hj
    · have e : v.length + 1 - 1 - j = (v.length - 1 - j) + 1 := by omega
      rw [e, Nat.testBit_succ, show (2 * vecInt v + b.toNat) / 2 = vecInt v by
        have := Bool.toNat_le b; omega, ih j hj]
      simp [List.getD_eq_getElem?_getD, List.getElem?_append_left hj]
    · have e : j = v.length := by omega
      subst e
      cases b <;> simp

/-- Bit `31 - j` of a packed word is the vector's bit, and 0 past its end (R9). -/
theorem packWord_getLsbD (v : Bits) (m j : Nat) (h : j < 32) :
    (packWord v m).getLsbD (31 - j) = v.getD (32 * m + j) false := by
  have l : ((List.range 32).map fun j => v.getD (32 * m + j) false).length = 32 := by simp
  have := vecInt_testBit ((List.range 32).map fun j => v.getD (32 * m + j) false) j (by omega)
  rw [l] at this
  simp only [packWord, BitVec.getLsbD_ofNat]
  rw [show 31 - j = 32 - 1 - j by omega, this]
  simp [List.getD_eq_getElem?_getD, h]
  omega

theorem pack32_getD (v : Bits) (m : Nat) (h : m < ceil32 v.length) : (pack32 v).getD m 0 = packWord v m := by
  simp [pack32, List.getD_eq_getElem?_getD, h]

end Sys2Proof.Machine
end

