-- ==== Sys2Proof/Laws/State.lean ====
section
/-! SUPPORT. One lemma per field per named update of State, so that no later proof unfolds an update. -/

namespace Sys2Proof.Machine

/-! ### `respond` sends one response -/

@[simp] theorem respond_cfg (s : State) (r : Response) : (s.respond r).cfg = s.cfg := rfl
@[simp] theorem respond_queue (s : State) (r : Response) : (s.respond r).queue = s.queue := rfl
@[simp] theorem respond_gsnap (s : State) (r : Response) : (s.respond r).gsnap = s.gsnap := rfl
@[simp] theorem respond_lenreg (s : State) (r : Response) : (s.respond r).lenreg = s.lenreg := rfl
@[simp] theorem respond_busy (s : State) (r : Response) : (s.respond r).busy = s.busy := rfl
@[simp] theorem respond_compiled (s : State) (r : Response) : (s.respond r).compiled = s.compiled := rfl
@[simp] theorem respond_consumed (s : State) (r : Response) : (s.respond r).consumed = s.consumed := rfl
@[simp] theorem respond_tracks (s : State) (r : Response) : (s.respond r).tracks = s.tracks := rfl
@[simp] theorem respond_xport (s : State) (r : Response) : (s.respond r).xport = s.xport := rfl
@[simp] theorem respond_drained (s : State) (r : Response) : (s.respond r).drained = s.drained := rfl
@[simp] theorem respond_fifo (s : State) (r : Response) : (s.respond r).fifo = s.fifo := rfl
@[simp] theorem respond_env (s : State) (r : Response) : (s.respond r).env = s.env := rfl
@[simp] theorem respond_cmds (s : State) (r : Response) : (s.respond r).cmds = s.cmds := rfl
@[simp] theorem respond_rsps (s : State) (r : Response) : (s.respond r).rsps = s.rsps ++ [r] := rfl

/-! ### `succeed` sends the success response -/

@[simp] theorem succeed_cfg (s : State) (ws : List Word) : (s.succeed ws).cfg = s.cfg := rfl
@[simp] theorem succeed_queue (s : State) (ws : List Word) : (s.succeed ws).queue = s.queue := rfl
@[simp] theorem succeed_gsnap (s : State) (ws : List Word) : (s.succeed ws).gsnap = s.gsnap := rfl
@[simp] theorem succeed_lenreg (s : State) (ws : List Word) : (s.succeed ws).lenreg = s.lenreg := rfl
@[simp] theorem succeed_busy (s : State) (ws : List Word) : (s.succeed ws).busy = s.busy := rfl
@[simp] theorem succeed_compiled (s : State) (ws : List Word) : (s.succeed ws).compiled = s.compiled := rfl
@[simp] theorem succeed_consumed (s : State) (ws : List Word) : (s.succeed ws).consumed = s.consumed := rfl
@[simp] theorem succeed_tracks (s : State) (ws : List Word) : (s.succeed ws).tracks = s.tracks := rfl
@[simp] theorem succeed_xport (s : State) (ws : List Word) : (s.succeed ws).xport = s.xport := rfl
@[simp] theorem succeed_drained (s : State) (ws : List Word) : (s.succeed ws).drained = s.drained := rfl
@[simp] theorem succeed_fifo (s : State) (ws : List Word) : (s.succeed ws).fifo = s.fifo := rfl
@[simp] theorem succeed_env (s : State) (ws : List Word) : (s.succeed ws).env = s.env := rfl
@[simp] theorem succeed_cmds (s : State) (ws : List Word) : (s.succeed ws).cmds = s.cmds := rfl
@[simp] theorem succeed_rsps (s : State) (ws : List Word) : (s.succeed ws).rsps = s.rsps ++ [0 :: ws] := rfl

/-! ### `raise` sends the error response -/

@[simp] theorem raise_cfg (s : State) (e : Err) : (s.raise e).cfg = s.cfg := rfl
@[simp] theorem raise_queue (s : State) (e : Err) : (s.raise e).queue = s.queue := rfl
@[simp] theorem raise_gsnap (s : State) (e : Err) : (s.raise e).gsnap = s.gsnap := rfl
@[simp] theorem raise_lenreg (s : State) (e : Err) : (s.raise e).lenreg = s.lenreg := rfl
@[simp] theorem raise_busy (s : State) (e : Err) : (s.raise e).busy = s.busy := rfl
@[simp] theorem raise_compiled (s : State) (e : Err) : (s.raise e).compiled = s.compiled := rfl
@[simp] theorem raise_consumed (s : State) (e : Err) : (s.raise e).consumed = s.consumed := rfl
@[simp] theorem raise_tracks (s : State) (e : Err) : (s.raise e).tracks = s.tracks := rfl
@[simp] theorem raise_xport (s : State) (e : Err) : (s.raise e).xport = s.xport := rfl
@[simp] theorem raise_drained (s : State) (e : Err) : (s.raise e).drained = s.drained := rfl
@[simp] theorem raise_fifo (s : State) (e : Err) : (s.raise e).fifo = s.fifo := rfl
@[simp] theorem raise_env (s : State) (e : Err) : (s.raise e).env = s.env := rfl
@[simp] theorem raise_cmds (s : State) (e : Err) : (s.raise e).cmds = s.cmds := rfl
@[simp] theorem raise_rsps (s : State) (e : Err) : (s.raise e).rsps = s.rsps ++ [e.words] := rfl

/-! ### `place` places a block -/

@[simp] theorem place_cfg (s : State) (idx : Nat) (b : Block) : (s.place idx b).cfg = s.cfg := rfl
@[simp] theorem place_queue (s : State) (idx : Nat) (b : Block) : (s.place idx b).queue = placeAt s.queue idx b := rfl
@[simp] theorem place_gsnap (s : State) (idx : Nat) (b : Block) : (s.place idx b).gsnap = s.gsnap := rfl
@[simp] theorem place_lenreg (s : State) (idx : Nat) (b : Block) : (s.place idx b).lenreg = s.lenreg := rfl
@[simp] theorem place_busy (s : State) (idx : Nat) (b : Block) : (s.place idx b).busy = s.busy := rfl
@[simp] theorem place_compiled (s : State) (idx : Nat) (b : Block) : (s.place idx b).compiled = false := rfl
@[simp] theorem place_consumed (s : State) (idx : Nat) (b : Block) : (s.place idx b).consumed = s.consumed := rfl
@[simp] theorem place_tracks (s : State) (idx : Nat) (b : Block) : (s.place idx b).tracks = s.tracks := rfl
@[simp] theorem place_xport (s : State) (idx : Nat) (b : Block) : (s.place idx b).xport = s.xport := rfl
@[simp] theorem place_drained (s : State) (idx : Nat) (b : Block) : (s.place idx b).drained = s.drained := rfl
@[simp] theorem place_fifo (s : State) (idx : Nat) (b : Block) : (s.place idx b).fifo = s.fifo := rfl
@[simp] theorem place_env (s : State) (idx : Nat) (b : Block) : (s.place idx b).env = s.env := rfl
@[simp] theorem place_cmds (s : State) (idx : Nat) (b : Block) : (s.place idx b).cmds = s.cmds := rfl
@[simp] theorem place_rsps (s : State) (idx : Nat) (b : Block) : (s.place idx b).rsps = s.rsps := rfl

/-! ### `offerFirst` puts a packet at the command port -/

@[simp] theorem offerFirst_cfg (s : State) (p : Packet) : (s.offerFirst p).cfg = s.cfg := rfl
@[simp] theorem offerFirst_queue (s : State) (p : Packet) : (s.offerFirst p).queue = s.queue := rfl
@[simp] theorem offerFirst_gsnap (s : State) (p : Packet) : (s.offerFirst p).gsnap = s.gsnap := rfl
@[simp] theorem offerFirst_lenreg (s : State) (p : Packet) : (s.offerFirst p).lenreg = s.lenreg := rfl
@[simp] theorem offerFirst_busy (s : State) (p : Packet) : (s.offerFirst p).busy = s.busy := rfl
@[simp] theorem offerFirst_compiled (s : State) (p : Packet) : (s.offerFirst p).compiled = s.compiled := rfl
@[simp] theorem offerFirst_consumed (s : State) (p : Packet) : (s.offerFirst p).consumed = s.consumed := rfl
@[simp] theorem offerFirst_tracks (s : State) (p : Packet) : (s.offerFirst p).tracks = s.tracks := rfl
@[simp] theorem offerFirst_xport (s : State) (p : Packet) : (s.offerFirst p).xport = s.xport := rfl
@[simp] theorem offerFirst_drained (s : State) (p : Packet) : (s.offerFirst p).drained = s.drained := rfl
@[simp] theorem offerFirst_fifo (s : State) (p : Packet) : (s.offerFirst p).fifo = s.fifo := rfl
@[simp] theorem offerFirst_env (s : State) (p : Packet) : (s.offerFirst p).env = s.env := rfl
@[simp] theorem offerFirst_cmds (s : State) (p : Packet) : (s.offerFirst p).cmds = p :: s.cmds := rfl
@[simp] theorem offerFirst_rsps (s : State) (p : Packet) : (s.offerFirst p).rsps = s.rsps := rfl

/-! ### `call` asks for how the next port call ends -/

@[simp] theorem call_cfg (s : State) : (s.call.2).cfg = s.cfg := by unfold State.call; split <;> rfl
@[simp] theorem call_queue (s : State) : (s.call.2).queue = s.queue := by unfold State.call; split <;> rfl
@[simp] theorem call_gsnap (s : State) : (s.call.2).gsnap = s.gsnap := by unfold State.call; split <;> rfl
@[simp] theorem call_lenreg (s : State) : (s.call.2).lenreg = s.lenreg := by unfold State.call; split <;> rfl
@[simp] theorem call_busy (s : State) : (s.call.2).busy = s.busy := by unfold State.call; split <;> rfl
@[simp] theorem call_compiled (s : State) : (s.call.2).compiled = s.compiled := by unfold State.call; split <;> rfl
@[simp] theorem call_consumed (s : State) : (s.call.2).consumed = s.consumed := by unfold State.call; split <;> rfl
@[simp] theorem call_tracks (s : State) : (s.call.2).tracks = s.tracks := by unfold State.call; split <;> rfl
@[simp] theorem call_xport (s : State) : (s.call.2).xport = s.xport := by unfold State.call; split <;> rfl
@[simp] theorem call_drained (s : State) : (s.call.2).drained = s.drained := by unfold State.call; split <;> rfl
@[simp] theorem call_fifo (s : State) : (s.call.2).fifo = s.fifo := by unfold State.call; split <;> rfl
@[simp] theorem call_cmds (s : State) : (s.call.2).cmds = s.cmds := by unfold State.call; split <;> rfl
@[simp] theorem call_rsps (s : State) : (s.call.2).rsps = s.rsps := by unfold State.call; split <;> rfl

/-! ### `capture` appends a capture to the FIFO -/

@[simp] theorem capture_cfg (s : State) : (s.capture).cfg = s.cfg := by unfold State.capture; split <;> rfl
@[simp] theorem capture_queue (s : State) : (s.capture).queue = s.queue := by unfold State.capture; split <;> rfl
@[simp] theorem capture_gsnap (s : State) : (s.capture).gsnap = s.gsnap := by unfold State.capture; split <;> rfl
@[simp] theorem capture_lenreg (s : State) : (s.capture).lenreg = s.lenreg := by unfold State.capture; split <;> rfl
@[simp] theorem capture_busy (s : State) : (s.capture).busy = s.busy := by unfold State.capture; split <;> rfl
@[simp] theorem capture_compiled (s : State) : (s.capture).compiled = s.compiled := by unfold State.capture; split <;> rfl
@[simp] theorem capture_consumed (s : State) : (s.capture).consumed = s.consumed := by unfold State.capture; split <;> rfl
@[simp] theorem capture_tracks (s : State) : (s.capture).tracks = s.tracks := by unfold State.capture; split <;> rfl
@[simp] theorem capture_xport (s : State) : (s.capture).xport = s.xport := by unfold State.capture; split <;> rfl
@[simp] theorem capture_drained (s : State) : (s.capture).drained = s.drained := by unfold State.capture; split <;> rfl
@[simp] theorem capture_cmds (s : State) : (s.capture).cmds = s.cmds := by unfold State.capture; split <;> rfl
@[simp] theorem capture_rsps (s : State) : (s.capture).rsps = s.rsps := by unfold State.capture; split <;> rfl

/-! ### `chipStep` lets the chip act before a port call -/

@[simp] theorem chipStep_cfg (s : State) : (s.chipStep).cfg = s.cfg := by unfold State.chipStep; split <;> simp
@[simp] theorem chipStep_queue (s : State) : (s.chipStep).queue = s.queue := by unfold State.chipStep; split <;> simp
@[simp] theorem chipStep_gsnap (s : State) : (s.chipStep).gsnap = s.gsnap := by unfold State.chipStep; split <;> simp
@[simp] theorem chipStep_lenreg (s : State) : (s.chipStep).lenreg = s.lenreg := by unfold State.chipStep; split <;> simp
@[simp] theorem chipStep_busy (s : State) : (s.chipStep).busy = s.busy := by unfold State.chipStep; split <;> simp
@[simp] theorem chipStep_compiled (s : State) : (s.chipStep).compiled = s.compiled := by unfold State.chipStep; split <;> simp
@[simp] theorem chipStep_consumed (s : State) : (s.chipStep).consumed = s.consumed := by unfold State.chipStep; split <;> simp
@[simp] theorem chipStep_tracks (s : State) : (s.chipStep).tracks = s.tracks := by unfold State.chipStep; split <;> simp
@[simp] theorem chipStep_xport (s : State) : (s.chipStep).xport = s.xport := by unfold State.chipStep; split <;> simp
@[simp] theorem chipStep_drained (s : State) : (s.chipStep).drained = s.drained := by unfold State.chipStep; split <;> simp
@[simp] theorem chipStep_cmds (s : State) : (s.chipStep).cmds = s.cmds := by unfold State.chipStep; split <;> simp
@[simp] theorem chipStep_rsps (s : State) : (s.chipStep).rsps = s.rsps := by unfold State.chipStep; split <;> simp

/-! ### `portCall` is a port call after the chip's step -/

@[simp] theorem portCall_cfg (s : State) : (s.portCall.2).cfg = s.cfg := by simp [State.portCall]
@[simp] theorem portCall_queue (s : State) : (s.portCall.2).queue = s.queue := by simp [State.portCall]
@[simp] theorem portCall_gsnap (s : State) : (s.portCall.2).gsnap = s.gsnap := by simp [State.portCall]
@[simp] theorem portCall_lenreg (s : State) : (s.portCall.2).lenreg = s.lenreg := by simp [State.portCall]
@[simp] theorem portCall_busy (s : State) : (s.portCall.2).busy = s.busy := by simp [State.portCall]
@[simp] theorem portCall_compiled (s : State) : (s.portCall.2).compiled = s.compiled := by simp [State.portCall]
@[simp] theorem portCall_consumed (s : State) : (s.portCall.2).consumed = s.consumed := by simp [State.portCall]
@[simp] theorem portCall_tracks (s : State) : (s.portCall.2).tracks = s.tracks := by simp [State.portCall]
@[simp] theorem portCall_xport (s : State) : (s.portCall.2).xport = s.xport := by simp [State.portCall]
@[simp] theorem portCall_drained (s : State) : (s.portCall.2).drained = s.drained := by simp [State.portCall]
@[simp] theorem portCall_cmds (s : State) : (s.portCall.2).cmds = s.cmds := by simp [State.portCall]
@[simp] theorem portCall_rsps (s : State) : (s.portCall.2).rsps = s.rsps := by simp [State.portCall]

/-! ### `pollDone` polls the transport -/

@[simp] theorem pollDone_cfg (s : State) : (s.pollDone.2).cfg = s.cfg := by unfold State.pollDone; split <;> rfl
@[simp] theorem pollDone_queue (s : State) : (s.pollDone.2).queue = s.queue := by unfold State.pollDone; split <;> rfl
@[simp] theorem pollDone_gsnap (s : State) : (s.pollDone.2).gsnap = s.gsnap := by unfold State.pollDone; split <;> rfl
@[simp] theorem pollDone_lenreg (s : State) : (s.pollDone.2).lenreg = s.lenreg := by unfold State.pollDone; split <;> rfl
@[simp] theorem pollDone_busy (s : State) : (s.pollDone.2).busy = s.busy := by unfold State.pollDone; split <;> rfl
@[simp] theorem pollDone_compiled (s : State) : (s.pollDone.2).compiled = s.compiled := by unfold State.pollDone; split <;> rfl
@[simp] theorem pollDone_consumed (s : State) : (s.pollDone.2).consumed = s.consumed := by unfold State.pollDone; split <;> rfl
@[simp] theorem pollDone_tracks (s : State) : (s.pollDone.2).tracks = s.tracks := by unfold State.pollDone; split <;> rfl
@[simp] theorem pollDone_drained (s : State) : (s.pollDone.2).drained = s.drained := by unfold State.pollDone; split <;> rfl
@[simp] theorem pollDone_fifo (s : State) : (s.pollDone.2).fifo = s.fifo := by unfold State.pollDone; split <;> rfl
@[simp] theorem pollDone_cmds (s : State) : (s.pollDone.2).cmds = s.cmds := by unfold State.pollDone; split <;> rfl
@[simp] theorem pollDone_rsps (s : State) : (s.pollDone.2).rsps = s.rsps := by unfold State.pollDone; split <;> rfl

/-! ### `startTransport` hands the stream over -/

@[simp] theorem startTransport_cfg (s : State) (rep : BitVec 16) : (s.startTransport rep).cfg = s.cfg := by unfold State.startTransport; split <;> [rfl; (split <;> rfl)]
@[simp] theorem startTransport_queue (s : State) (rep : BitVec 16) : (s.startTransport rep).queue = s.queue := by unfold State.startTransport; split <;> [rfl; (split <;> rfl)]
@[simp] theorem startTransport_gsnap (s : State) (rep : BitVec 16) : (s.startTransport rep).gsnap = s.gsnap := by unfold State.startTransport; split <;> [rfl; (split <;> rfl)]
@[simp] theorem startTransport_lenreg (s : State) (rep : BitVec 16) : (s.startTransport rep).lenreg = s.lenreg := by unfold State.startTransport; split <;> [rfl; (split <;> rfl)]
@[simp] theorem startTransport_busy (s : State) (rep : BitVec 16) : (s.startTransport rep).busy = s.busy := by unfold State.startTransport; split <;> [rfl; (split <;> rfl)]
@[simp] theorem startTransport_compiled (s : State) (rep : BitVec 16) : (s.startTransport rep).compiled = s.compiled := by unfold State.startTransport; split <;> [rfl; (split <;> rfl)]
@[simp] theorem startTransport_consumed (s : State) (rep : BitVec 16) : (s.startTransport rep).consumed = s.consumed := by unfold State.startTransport; split <;> [rfl; (split <;> rfl)]
@[simp] theorem startTransport_tracks (s : State) (rep : BitVec 16) : (s.startTransport rep).tracks = s.tracks := by unfold State.startTransport; split <;> [rfl; (split <;> rfl)]
@[simp] theorem startTransport_drained (s : State) (rep : BitVec 16) : (s.startTransport rep).drained = s.drained := by unfold State.startTransport; split <;> [rfl; (split <;> rfl)]
@[simp] theorem startTransport_fifo (s : State) (rep : BitVec 16) : (s.startTransport rep).fifo = s.fifo := by unfold State.startTransport; split <;> [rfl; (split <;> rfl)]
@[simp] theorem startTransport_cmds (s : State) (rep : BitVec 16) : (s.startTransport rep).cmds = s.cmds := by unfold State.startTransport; split <;> [rfl; (split <;> rfl)]
@[simp] theorem startTransport_rsps (s : State) (rep : BitVec 16) : (s.startTransport rep).rsps = s.rsps := by unfold State.startTransport; split <;> [rfl; (split <;> rfl)]

/-! ### `transportUnknown` is the world after a failed EXEC -/

@[simp] theorem transportUnknown_cfg (s : State) : (s.transportUnknown).cfg = s.cfg := by simp [State.transportUnknown]
@[simp] theorem transportUnknown_queue (s : State) : (s.transportUnknown).queue = s.queue := by simp [State.transportUnknown]
@[simp] theorem transportUnknown_gsnap (s : State) : (s.transportUnknown).gsnap = s.gsnap := by simp [State.transportUnknown]
@[simp] theorem transportUnknown_lenreg (s : State) : (s.transportUnknown).lenreg = s.lenreg := by simp [State.transportUnknown]
@[simp] theorem transportUnknown_busy (s : State) : (s.transportUnknown).busy = s.busy := by simp [State.transportUnknown]
@[simp] theorem transportUnknown_compiled (s : State) : (s.transportUnknown).compiled = s.compiled := by simp [State.transportUnknown]
@[simp] theorem transportUnknown_consumed (s : State) : (s.transportUnknown).consumed = s.consumed := by simp [State.transportUnknown]
@[simp] theorem transportUnknown_tracks (s : State) : (s.transportUnknown).tracks = s.tracks := by simp [State.transportUnknown]
@[simp] theorem transportUnknown_drained (s : State) : (s.transportUnknown).drained = false := by simp [State.transportUnknown]
@[simp] theorem transportUnknown_cmds (s : State) : (s.transportUnknown).cmds = s.cmds := by simp [State.transportUnknown]
@[simp] theorem transportUnknown_rsps (s : State) : (s.transportUnknown).rsps = s.rsps := by simp [State.transportUnknown]

/-! ### The tuple `S` -/

@[simp] theorem tuple_respond (s : State) (r : Response) : (s.respond r).tuple = s.tuple := rfl
@[simp] theorem tuple_raise (s : State) (e : Err) : (s.raise e).tuple = s.tuple := rfl
@[simp] theorem tuple_succeed (s : State) (ws : List Word) : (s.succeed ws).tuple = s.tuple := rfl
@[simp] theorem tuple_call (s : State) : s.call.2.tuple = s.tuple := by simp [State.tuple]
@[simp] theorem tuple_chipStep (s : State) : s.chipStep.tuple = s.tuple := by simp [State.tuple]
@[simp] theorem tuple_portCall (s : State) : s.portCall.2.tuple = s.tuple := by simp [State.tuple]
@[simp] theorem tuple_pollDone (s : State) : s.pollDone.2.tuple = s.tuple := by simp [State.tuple]
@[simp] theorem tuple_transportUnknown (s : State) : s.transportUnknown.tuple = s.tuple := by simp [State.tuple]
@[simp] theorem tuple_startTransport (s : State) (rep : BitVec 16) : (s.startTransport rep).tuple = s.tuple := by
  simp [State.tuple]

end Sys2Proof.Machine
end

