-- ==== Sys2Proof/Laws/Memory.lean ====
section
/-! SUPPORT. The track memory's laws: every operation keeps its form, a read after a write gives the value written, and
a write leaves every other bit alone (spec 20_memory.md R40, R42). -/

namespace Sys2Proof.Machine

theorem Memory.wf_iff (c : Config) (m : Memory) :
    m.wf c = true ↔ m.length = c.ntracks ∧ ∀ track ∈ m, track.length = c.trackLen := by
  simp [Memory.wf]

theorem Memory.wf_row {c : Config} {m : Memory} (h : m.wf c = true) (k : Nat) (hk : k < c.ntracks) :
    (m.getD k []).length = c.trackLen := by
  obtain ⟨h1, h2⟩ := (Memory.wf_iff c m).1 h
  have hk' : k < m.length := by omega
  rw [List.getD_eq_getElem?_getD, List.getElem?_eq_getElem hk']
  exact h2 _ (List.getElem_mem hk')

@[simp] theorem Memory.write_length (m : Memory) (k t : Nat) (v : Bits) : (m.write k t v).length = m.length := by
  simp [Memory.write]

theorem Memory.write_row (m : Memory) (k k' t : Nat) (v : Bits) (hk : k < m.length) :
    (m.write k t v).getD k' [] = if k' = k then overwrite (m.getD k []) t v else m.getD k' [] := by
  simp only [Memory.write, List.getD_eq_getElem?_getD, List.getElem?_modify]
  split
  · rename_i h; subst h; simp [hk]
  · rename_i h; rw [if_neg (fun e => h e.symm)]; simp

/-- A write inside the memory keeps its form (R42). -/
theorem Memory.write_wf {c : Config} {m : Memory} (h : m.wf c = true) (k t : Nat) (v : Bits)
    (ht : t + v.length ≤ c.trackLen) : (m.write k t v).wf c = true := by
  obtain ⟨h1, h2⟩ := (Memory.wf_iff c m).1 h
  refine (Memory.wf_iff c _).2 ⟨by simpa using h1, fun track hm => ?_⟩
  obtain ⟨i, hi, rfl⟩ := List.getElem_of_mem hm
  simp only [Memory.write, List.getElem_modify]
  have hi' : i < m.length := by simpa [Memory.write] using hi
  split
  · rw [overwrite_length _ _ _ (by rw [h2 _ (List.getElem_mem hi')]; omega)]
    exact h2 _ (List.getElem_mem hi')
  · exact h2 _ (List.getElem_mem hi')

/-- The bits of a row written inside the memory: the new ones in the range, the old ones elsewhere (R10, R42). -/
theorem Memory.bit_write {c : Config} {m : Memory} (h : m.wf c = true) (k t : Nat) (v : Bits)
    (hk : k < c.ntracks) (ht : t + v.length ≤ c.trackLen) (k' t' : Nat) :
    (m.write k t v).bit k' t' =
      if k' = k ∧ t ≤ t' ∧ t' < t + v.length then v.getD (t' - t) false else m.bit k' t' := by
  have h1 := ((Memory.wf_iff c m).1 h).1
  simp only [Memory.bit, Memory.write_row m k k' t v (by omega)]
  by_cases e : k' = k
  · subst e
    rw [if_pos rfl, overwrite_getD _ _ _ _ (by rw [Memory.wf_row h k' hk]; omega)]
    simp
  · rw [if_neg e, if_neg (fun x => e x.1)]

/-- Clearing tracks keeps the form (R129). -/
theorem Memory.clear_wf {c : Config} {m : Memory} (h : m.wf c = true) (mask : Option Word) :
    (m.clear c mask).wf c = true := by
  obtain ⟨h1, h2⟩ := (Memory.wf_iff c m).1 h
  refine (Memory.wf_iff c _).2 ⟨by simpa [Memory.clear] using h1, fun track hm => ?_⟩
  obtain ⟨i, hi, rfl⟩ := List.getElem_of_mem hm
  have hi' : i < m.length := by simpa [Memory.clear] using hi
  simp only [Memory.clear, List.getElem_mapIdx]
  split
  · simp
  · exact h2 _ (List.getElem_mem hi')

/-- The power-on memory has the form (R210, R211). -/
theorem powerOnTracks_wf (c : Config) : (powerOnTracks c).wf c = true := by
  refine (Memory.wf_iff c _).2 ⟨by simp [powerOnTracks], fun track hm => ?_⟩
  simp only [powerOnTracks, List.mem_map] at hm
  obtain ⟨k, -, rfl⟩ := hm
  simp

/-- The memory of the reset state has the form. -/
theorem reset_tracks_wf : State.reset.tracks.wf State.reset.cfg = true := powerOnTracks_wf _

/-- Two memories of one form with the same bits are the same data. -/
theorem Memory.ext_bits {c : Config} {m m' : Memory} (h : m.wf c = true) (h' : m'.wf c = true)
    (e : ∀ k t, k < c.ntracks → t < c.trackLen → m.bit k t = m'.bit k t) : m = m' := by
  obtain ⟨h1, h2⟩ := (Memory.wf_iff c m).1 h
  obtain ⟨h1', h2'⟩ := (Memory.wf_iff c m').1 h'
  refine List.ext_getElem (by omega) fun k hk hk' => ?_
  have l := h2 _ (List.getElem_mem hk)
  have l' := h2' _ (List.getElem_mem hk')
  refine List.ext_getElem (by omega) fun t ht ht' => ?_
  have := e k t (by omega) (by omega)
  simpa [Memory.bit, List.getD_eq_getElem?_getD, List.getElem?_eq_getElem hk, List.getElem?_eq_getElem hk',
    List.getElem?_eq_getElem ht, List.getElem?_eq_getElem ht'] using this

end Sys2Proof.Machine
end

