-- ==== Sys2Proof/Laws/Ops.lean ====
section
/-! SUPPORT. What each shared operation does, said once: the builders' preamble, the field records, the layout of the
stream, and the writing of the tracks. -/

namespace Sys2Proof.Machine

/-! ### Builders -/

/-- With no preamble error the index is the one R90 gives. -/
theorem builderIndex_ok {pl : Placement} {s : State} (h : builderAdmits pl s = true) (op : Word) :
    builderIndex op pl s = .ok (placeIndex pl s) := by
  simp only [builderAdmits, Bool.and_eq_true, Bool.not_eq_true', decide_eq_true_eq] at h
  obtain ⟨⟨hb, hp⟩, hq⟩ := h
  cases pl with
  | none =>
    simp only [placeIndex] at *
    simp [builderIndex, hb, State.qlen, Nat.ne_of_lt hq]
  | some pos =>
    simp only [placeIndex] at *
    simp [builderIndex, hb, State.qlen, Nat.not_lt.2 hp, Nat.ne_of_lt hq]

theorem builderIndex_busy {s : State} (h : s.busy = true) (op : Word) (pl : Placement) :
    builderIndex op pl s = .error (busyErr s op) := by simp [builderIndex, h]

/-- If the preamble answers an index, BUSY is 0, the index is R90's and the queue has room. -/
theorem builderIndex_cases {op : Word} {pl : Placement} {s : State} {idx : Nat} (h : builderIndex op pl s = .ok idx) :
    s.busy = false ∧ idx = placeIndex pl s ∧ idx ≤ s.queue.length ∧ s.queue.length ≠ s.cfg.qmax := by
  unfold builderIndex at h
  split at h
  · cases h
  · rename_i hb
    refine ⟨by simpa using hb, ?_⟩
    cases pl with
    | none =>
      by_cases hq : s.qlen = s.cfg.qmax
      · simp [hq] at h
      · simp only [hq, if_false, Except.ok.injEq] at h
        exact ⟨h.symm, by rw [← h]; exact Nat.le_refl _, hq⟩
    | some pos =>
      by_cases hp : s.qlen < pos.toNat
      · simp [hp] at h
      · by_cases hq : s.qlen = s.cfg.qmax
        · dsimp only at h
          rw [if_neg hp, if_pos hq] at h
          cases h
        · simp only [hp, hq, if_false, Except.ok.injEq] at h
          exact ⟨h.symm, by rw [← h]; exact Nat.not_lt.1 hp, hq⟩

/-- A number that fits is its own response word. -/
theorem numWord_of_lt {x : Nat} (h : x < 2 ^ 32) : numWord x = BitVec.ofNat 32 x := if_pos h

/-- The response to an error with context `n` and no track is `n` before `0xFF` and the code (R184). -/
theorem words_noTrack (code : ErrCode) (ctx : BitVec 16) (v : Word) :
    Err.words ⟨code, ctx, noTrack, v⟩ = [ctx ++ 0xFF#8 ++ code.code, v] := rfl

theorem ErrCode.code_ne_zero (c : ErrCode) : c.code ≠ 0 := by cases c <;> decide

/-- An error response is never a success response: its code is in the low byte of its first word (R182, R184). -/
theorem Err.words_ne_success (e : Err) (ws : List Word) : e.words ≠ 0 :: ws := by
  intro h
  simp only [Err.words, List.cons.injEq] at h
  have : (e.ctx ++ e.trk ++ e.code.code).setWidth 8 = e.code.code := by
    apply BitVec.eq_of_toNat_eq
    have := e.code.code.isLt
    rw [BitVec.toNat_setWidth, BitVec.toNat_append, ← Nat.shiftLeft_add_eq_or_of_lt this, Nat.shiftLeft_eq]
    omega
  rw [h.1] at this
  exact ErrCode.code_ne_zero e.code this.symm

theorem words_illegal (h : Word) : (illegal h).words = [0x0000FF01, h] := by
  unfold illegal; rw [words_noTrack]; congr 1

theorem words_badTimeout (v : Word) : Err.words ⟨.badTimeout, 0#16, noTrack, v⟩ = [0x0000FF0B, v] := by
  rw [words_noTrack]; congr 1

theorem words_emptyQueue (v : Word) : Err.words ⟨.emptyQueue, 0#16, noTrack, v⟩ = [0x0000FF10, v] := by
  rw [words_noTrack]; congr 1

theorem words_badTrack (v : Word) : Err.words ⟨.badTrack, 0#16, noTrack, v⟩ = [0x0000FF08, v] := by
  rw [words_noTrack]; congr 1

theorem words_readoutConsumed (v : Word) : Err.words ⟨.readoutConsumed, 0#16, noTrack, v⟩ = [0x0000FF11, v] := by
  rw [words_noTrack]; congr 1

theorem words_fifoRead (k : BitVec 16) (v : Word) :
    Err.words ⟨.fifoRead, k, noTrack, v⟩ = [k ++ 0xFF21#16, v] := by
  rw [words_noTrack]; congr 1
  rw [BitVec.append_assoc]; rfl

theorem words_transportError (k : BitVec 16) (v : Word) :
    Err.words ⟨.transportError, k, noTrack, v⟩ = [k ++ 0xFF22#16, v] := by
  rw [words_noTrack]; congr 1
  rw [BitVec.append_assoc]; rfl

theorem words_timedOut (v : Word) : Err.words ⟨.timedOut, 0#16, noTrack, v⟩ = [0x0000FF20, v] := by
  rw [words_noTrack]; congr 1

theorem words_pollFailed (v : Word) : Err.words ⟨.transportError, 4, noTrack, v⟩ = [0x0004FF22, v] := by
  rw [words_noTrack]; congr 1

/-! ### Field records -/

theorem recordOk_iff (c : Config) (r : FieldRecord) :
    recordOk c r = true ↔
      ∃ f, c.gfields[r.fid.toNat]? = some f ∧ r.len.toNat = f.width ∧ beInt r.words < 2 ^ f.width := by
  unfold recordOk
  split
  · rename_i h; simp [h]
  · rename_i f h
    simp only [Bool.and_eq_true, beq_iff_eq, decide_eq_true_eq, h, Option.some.injEq, exists_eq_left']
    constructor
    · rintro ⟨h1, h2⟩; exact ⟨h1, h1 ▸ h2⟩
    · rintro ⟨h1, h2⟩; exact ⟨h1, h1 ▸ h2⟩

/-- A valid record overwrites its field with its value, most significant bit first (R96). -/
theorem applyRecord_ok {c : Config} {r : FieldRecord} {f : Field} (hf : c.gfields[r.fid.toNat]? = some f)
    (hl : r.len.toNat = f.width) (hx : beInt r.words < 2 ^ f.width) (idx : Nat) (img : Bits) :
    applyRecord c idx r img = .ok (overwrite img f.offset (msbVec f.width (beInt r.words))) := by
  simp [applyRecord, hf, hl, Nat.not_le.2 hx]

/-- A record that is applied is valid. -/
theorem applyRecord_cases {c : Config} {idx : Nat} {r : FieldRecord} {img img' : Bits}
    (h : applyRecord c idx r img = .ok img') :
    ∃ f, c.gfields[r.fid.toNat]? = some f ∧ r.len.toNat = f.width ∧ beInt r.words < 2 ^ f.width ∧
      img' = overwrite img f.offset (msbVec f.width (beInt r.words)) := by
  unfold applyRecord at h
  split at h
  · cases h
  · rename_i f hf
    split at h
    · cases h
    · rename_i hl
      split at h
      · cases h
      · rename_i hx
        injection h with h
        have hl' : r.len.toNat = f.width := by simpa using hl
        exact ⟨f, hf, hl', by rw [hl'] at hx; omega, by rw [← h, hl']⟩

/-- A field of a well-formed configuration lies inside the global register (R5). -/
theorem field_fits {c : Config} (hc : c.wf = true) {f : Field} (hf : f ∈ c.gfields) :
    f.offset + f.width ≤ c.globalWidth := by
  simp only [Config.wf, Config.tiles, Bool.and_eq_true, List.all_eq_true, decide_eq_true_eq] at hc
  exact hc.1.1.1.1.1.1.1.2.1 f hf

theorem field_width {c : Config} (hc : c.wf = true) {f : Field} (hf : f ∈ c.gfields) :
    1 ≤ f.width ∧ f.width ≤ 65535 := by
  simp only [Config.wf, Bool.and_eq_true, List.all_eq_true, decide_eq_true_eq] at hc
  exact hc.1.1.1.1.1.1.1.1.2 f hf

/-- Records that all apply keep the length of the image. -/
theorem applyRecords_length {c : Config} (hc : c.wf = true) {idx : Nat} {rs : List FieldRecord} {img img' : Bits}
    (hl : img.length = c.globalWidth) (h : applyRecords c idx rs img = .ok img') : img'.length = c.globalWidth := by
  induction rs generalizing img with
  | nil => simp only [applyRecords] at h; injection h with h; rw [← h, hl]
  | cons r rs ih =>
    simp only [applyRecords] at h
    split at h
    · rename_i img1 h1
      obtain ⟨f, hf, -, -, rfl⟩ := applyRecord_cases h1
      refine ih ?_ h
      rw [overwrite_length, hl]
      rw [msbVec_length, hl]
      exact field_fits hc (List.mem_of_getElem? hf)
    · cases h

/-- Valid records all apply, and each bit comes from the last record that names its field (R96). -/
theorem applyRecords_ok {c : Config} (hc : c.wf = true) (idx : Nat) {rs : List FieldRecord}
    (hrs : rs.all (recordOk c) = true) {img : Bits} (hl : img.length = c.globalWidth) :
    ∃ img', applyRecords c idx rs img = .ok img' ∧ img'.length = c.globalWidth ∧
      ∀ p, img'.getD p false = recordsBit c rs img p := by
  induction rs generalizing img with
  | nil => exact ⟨img, rfl, hl, fun p => by simp [recordsBit]⟩
  | cons r rs ih =>
    simp only [List.all_cons, Bool.and_eq_true] at hrs
    obtain ⟨f, hf, hlen, hx⟩ := (recordOk_iff c r).1 hrs.1
    have fit := field_fits hc (List.mem_of_getElem? hf)
    have hl1 : (overwrite img f.offset (msbVec f.width (beInt r.words))).length = c.globalWidth := by
      rw [overwrite_length, hl]; rw [msbVec_length, hl]; exact fit
    obtain ⟨img', h1, h2, h3⟩ := ih hrs.2 hl1
    refine ⟨img', by simp [applyRecords, applyRecord_ok hf hlen hx, h1], h2, fun p => ?_⟩
    rw [h3 p]
    simp only [recordsBit, List.reverse_cons, List.find?_append]
    cases hq : rs.reverse.find? (recordCovers c p) with
    | some q => simp
    | none =>
      simp only [Option.none_or]
      rw [overwrite_getD _ _ _ _ (by rw [msbVec_length, hl]; exact fit)]
      simp only [List.find?_cons, List.find?_nil, recordCovers, hf, Field.covers, msbVec_length]
      by_cases hp : f.offset ≤ p ∧ p < f.offset + f.width
      · simp only [hp, decide_true, Bool.and_self, and_self, if_true, hf]
        rw [msbVec_getD _ _ _ (by omega)]
      · rw [if_neg hp]
        have : (decide (f.offset ≤ p) && decide (p < f.offset + f.width)) = false := by
          rw [← Bool.not_eq_true]; simpa using hp
        simp [this]

/-- The first record that is not valid decides the error (R96, R187). -/
theorem applyRecords_bad {c : Config} (idx : Nat) {good : List FieldRecord} {r : FieldRecord} {rest : List FieldRecord}
    (hg : good.all (recordOk c) = true) {e : Err} (he : ∀ img, applyRecord c idx r img = .error e) (img : Bits) :
    applyRecords c idx (good ++ r :: rest) img = .error e := by
  induction good generalizing img with
  | nil => simp [applyRecords, he]
  | cons g gs ih =>
    simp only [List.all_cons, Bool.and_eq_true] at hg
    obtain ⟨f, hf, hlen, hx⟩ := (recordOk_iff c g).1 hg.1
    simp [applyRecords, applyRecord_ok hf hlen hx, ih hg.2]

/-! ### Layout of the stream -/

theorem endOfBlocks_eq (pos : Nat) (q : List Block) :
    endOfBlocks pos q = pos + (q.map Block.len).sum + 40 * q.length := by
  induction q generalizing pos with
  | nil => simp [endOfBlocks]
  | cons b bs ih => simp only [endOfBlocks, ih, gap, List.map_cons, List.sum_cons, List.length_cons]; omega

/-- COMPILE's `total` is R122's formula. -/
theorem streamLength_eq (c : Config) (q : List Block) : streamLength c q = totalOf c q :=
  endOfBlocks_eq _ _

theorem placeBlocks_getElem? (pos : Nat) (q : List Block) (i : Nat) :
    (placeBlocks pos q)[i]? = q[i]?.map fun b => (pos + ((q.take i).map fun b => b.len + 40).sum, b) := by
  induction q generalizing pos i with
  | nil => simp [placeBlocks]
  | cons b bs ih =>
    cases i with
    | zero => simp [placeBlocks]
    | succ i =>
      simp only [placeBlocks, List.getElem?_cons_succ, ih, gap, List.take_succ_cons, List.map_cons, List.sum_cons]
      congr 1; funext x; simp; omega

/-- The offset of the end of block `i`, gap included, is at most the start of any later block and at most the end. -/
theorem start_step (c : Config) (q : List Block) (i : Nat) (b : Block) (h : q[i]? = some b) :
    startOf c q (i + 1) = startOf c q i + b.len + 40 := by
  have : q.take (i + 1) = q.take i ++ [b] := by rw [List.take_add_one, h]; rfl
  simp only [startOf, this, List.map_append, List.sum_append, List.map_cons, List.map_nil, List.sum_cons,
    List.sum_nil]
  omega

theorem start_mono (c : Config) (q : List Block) {i j : Nat} (h : i ≤ j) : startOf c q i ≤ startOf c q j := by
  induction j with
  | zero => simp_all
  | succ j ih =>
    rcases Nat.lt_or_ge i (j + 1) with h1 | h1
    · have := ih (by omega)
      cases hq : q[j]? with
      | none =>
        have : q.length ≤ j := by simpa using hq
        have e1 : q.take j = q := List.take_of_length_le this
        have e2 : q.take (j + 1) = q := List.take_of_length_le (by omega)
        simp only [startOf, e1, e2] at *; omega
      | some b => rw [start_step c q j b hq]; omega
    · have : i = j + 1 := by omega
      subst this; exact Nat.le_refl _

theorem start_end (c : Config) (q : List Block) : startOf c q q.length = totalOf c q := by
  have : ∀ l : List Block, (l.map fun b => b.len + 40).sum = (l.map Block.len).sum + 40 * l.length := by
    intro l
    induction l with
    | nil => rfl
    | cons b bs ih => simp only [List.map_cons, List.sum_cons, ih, List.length_cons]; omega
  simp only [startOf, totalOf, List.take_length, this]; omega

/-! ### Writing the tracks -/

/-- One placed block, written: its own tracks in its range get its patterns, every other bit is as before (R125). -/
theorem writePats_bit {c : Config} (start len : Nat) (hfit : start + len ≤ c.trackLen) :
    ∀ (pat : List (Nat × Bits)) (m : Memory), m.wf c = true → (pat.map Prod.fst).Nodup →
      (∀ kv ∈ pat, kv.2.length = len ∧ kv.1 < c.ntracks) →
      let m' := pat.foldl (fun m kv => m.write kv.1 start kv.2) m
      m'.wf c = true ∧
        (∀ k v, (k, v) ∈ pat → ∀ j < len, m'.bit k (start + j) = v.getD j false) ∧
        ∀ k t, (start ≤ t → t < start + len → k ∉ pat.map Prod.fst) → m'.bit k t = m.bit k t := by
  intro pat
  induction pat with
  | nil => intro m hm _ _; exact ⟨hm, by simp, fun _ _ _ => rfl⟩
  | cons kv pat ih =>
    intro m hm hnd hall
    obtain ⟨k0, v0⟩ := kv
    obtain ⟨hl0, hk0⟩ := hall (k0, v0) (by simp)
    simp only [List.map_cons, List.nodup_cons] at hnd
    have hm1 := Memory.write_wf hm k0 start v0 (by simp only at hl0; omega)
    obtain ⟨h1, h2, h3⟩ := ih (m.write k0 start v0) hm1 hnd.2 (fun kv h => hall kv (by simp [h]))
    have hb := Memory.bit_write hm k0 start v0 hk0 (by simp only at hl0; omega)
    refine ⟨h1, ?_, ?_⟩
    · intro k v hkv j hj
      rcases List.mem_cons.1 hkv with e | hin
      · simp only [Prod.mk.injEq] at e
        obtain ⟨rfl, rfl⟩ := e
        simp only [List.foldl_cons]
        rw [h3 k (start + j) (fun _ _ => hnd.1), hb, if_pos ⟨rfl, by omega, by simp only at hl0; omega⟩]
        simp
      · exact h2 k v hin j hj
    · intro k t hk
      simp only [List.foldl_cons]
      rw [h3 k t (fun a b => fun hin => hk a b (by simp [hin])), hb, if_neg]
      rintro ⟨rfl, a, b⟩
      exact hk a (by simp only at hl0; omega) (by simp)

/-- What the written form of `Block.wf` says. -/
theorem Block.wf_iff (c : Config) (b : Block) :
    b.wf c = true ↔ b.len = kindLen c b.kind ∧ b.pat.map Prod.fst = kindTracks b.kind ∧
      ∀ kv ∈ b.pat, kv.2.length = b.len := by
  simp [Block.wf, and_assoc]

theorem Block.wf_pat {c : Config} {b : Block} (hc : 5 ≤ c.ntracks) (h : b.wf c = true) :
    (b.pat.map Prod.fst).Nodup ∧ ∀ kv ∈ b.pat, kv.2.length = b.len ∧ kv.1 < c.ntracks := by
  obtain ⟨-, h2, h3⟩ := (Block.wf_iff c b).1 h
  have e : ∀ k, k ∈ b.pat.map Prod.fst → k < 5 := by
    rw [h2]; cases b.kind <;> simp [kindTracks]
  refine ⟨by rw [h2]; cases b.kind <;> simp [kindTracks], fun kv hkv => ⟨h3 kv hkv, ?_⟩⟩
  have := e kv.1 (List.mem_map_of_mem hkv)
  omega

/-- All placed blocks, written from `pos` on: each block's patterns stand in its own range, and every bit outside the
ranges of the blocks that define its track is as before (R125, R126). -/
theorem writeBlocks_bit {c : Config} (hc : 5 ≤ c.ntracks) :
    ∀ (q : List Block) (pos : Nat) (m : Memory), m.wf c = true → (∀ b ∈ q, b.wf c = true) →
      endOfBlocks pos q ≤ c.trackLen →
      let m' := (placeBlocks pos q).foldl writeBlock m
      m'.wf c = true ∧
        (∀ (i : Nat) (st : Nat) (b : Block), (placeBlocks pos q)[i]? = some (st, b) → ∀ k v, (k, v) ∈ b.pat →
          ∀ j < b.len, m'.bit k (st + j) = v.getD j false) ∧
        ∀ k t, (∀ (i : Nat) (st : Nat) (b : Block), (placeBlocks pos q)[i]? = some (st, b) → st ≤ t → t < st + b.len →
          k ∉ b.pat.map Prod.fst) → m'.bit k t = m.bit k t := by
  intro q
  induction q with
  | nil => intro pos m hm _ _; exact ⟨hm, by simp [placeBlocks], fun _ _ _ => rfl⟩
  | cons b bs ih =>
    intro pos m hm hb hfit
    have hle : ∀ (bs : List Block) (p : Nat), p ≤ endOfBlocks p bs := by
      intro bs p; rw [endOfBlocks_eq]; omega
    have hfit' : endOfBlocks (pos + b.len + gap) bs ≤ c.trackLen := hfit
    have hend := hle bs (pos + b.len + gap)
    obtain ⟨hnd, hall⟩ := Block.wf_pat hc (hb b (by simp))
    obtain ⟨w1, w2, w3⟩ := writePats_bit pos b.len (by simp only [gap] at *; omega) b.pat m hm hnd hall
    obtain ⟨r1, r2, r3⟩ := ih (pos + b.len + gap) (writeBlock m (pos, b)) w1 (fun x hx => hb x (by simp [hx])) hfit'
    have hst : ∀ (i st : Nat) (b' : Block), (placeBlocks (pos + b.len + gap) bs)[i]? = some (st, b') →
        pos + b.len + 40 ≤ st := by
      intro i st b' h
      rw [placeBlocks_getElem?] at h
      cases hq : bs[i]? with
      | none => simp [hq] at h
      | some x => simp [hq, gap] at h; omega
    refine ⟨r1, ?_, ?_⟩
    · intro i st b' h k v hkv j hj
      cases i with
      | zero =>
        simp only [placeBlocks, List.getElem?_cons_zero, Option.some.injEq, Prod.mk.injEq] at h
        obtain ⟨rfl, rfl⟩ := h
        simp only [placeBlocks, List.foldl_cons]
        rw [r3 k (pos + j) (fun i st b' h' h1 _ => by have := hst i st b' h'; omega)]
        exact w2 k v hkv j hj
      | succ i => exact r2 i st b' (by simpa [placeBlocks] using h) k v hkv j hj
    · intro k t hk
      simp only [placeBlocks, List.foldl_cons]
      rw [r3 k t (fun i st b' h' h1 h2 => hk (i + 1) st b' (by simpa [placeBlocks] using h') h1 h2)]
      exact w3 k t (fun h1 h2 => hk 0 pos b (by simp [placeBlocks]) h1 h2)

/-- The tracks after COMPILE, in terms of R121's offsets (R124 to R126). -/
theorem compileTracks_bit {c : Config} (hc : 5 ≤ c.ntracks) {q : List Block} {m : Memory} (hm : m.wf c = true)
    (hb : ∀ b ∈ q, b.wf c = true) (hfit : totalOf c q ≤ c.trackLen) :
    (compileTracks c q m).wf c = true ∧
      (∀ (i : Nat) (b : Block), q[i]? = some b → ∀ k v, (k, v) ∈ b.pat → ∀ j < b.len,
        (compileTracks c q m).bit k (startOf c q i + j) = v.getD j false) ∧
      ∀ k t, (∀ i, inBlock c q i t → ¬ definesTrack q i k) →
        (compileTracks c q m).bit k t = if k = 4 ∧ t < totalOf c q then true else m.bit k t := by
  have hs : (List.replicate (streamLength c q) true).length = totalOf c q := by simp [streamLength_eq]
  have hi : injection = 4 := rfl
  have hm1 := Memory.write_wf hm injection 0 (List.replicate (streamLength c q) true) (by rw [hs]; omega)
  obtain ⟨r1, r2, r3⟩ := writeBlocks_bit hc q (leadIn c q) _ hm1 hb (by
    have := streamLength_eq c q; simp only [streamLength] at this; omega)
  have hg : ∀ (i : Nat) (b : Block), q[i]? = some b →
      (placeBlocks (leadIn c q) q)[i]? = some (startOf c q i, b) := by
    intro i b h; rw [placeBlocks_getElem?, h]; rfl
  refine ⟨r1, fun i b h k v hkv j hj => r2 i _ b (hg i b h) k v hkv j hj, fun k t hk => ?_⟩
  unfold compileTracks
  rw [r3 k t ?_, Memory.bit_write hm _ _ _ (by omega) (by rw [hs]; omega)]
  · rw [hs, hi]
    by_cases h : k = 4 ∧ t < totalOf c q
    · rw [if_pos h, if_pos ⟨h.1, Nat.zero_le _, by omega⟩]
      rw [streamLength_eq, Nat.sub_zero, List.getD_eq_getElem?_getD]; simp [h.2]
    · rw [if_neg h, if_neg (fun x => h ⟨x.1, by omega⟩)]
  · intro i st b h h1 h2 hin
    rw [placeBlocks_getElem?] at h
    cases hq : q[i]? with
    | none => simp [hq] at h
    | some x =>
      simp only [hq, Option.map_some, Option.some.injEq, Prod.mk.injEq] at h
      obtain ⟨rfl, rfl⟩ := h
      exact hk i ⟨x, hq, h1, h2⟩ ⟨x, hq, hin⟩

/-- Compiling again writes the bits that are already there (R127). -/
theorem compileTracks_idem {c : Config} (hc : 5 ≤ c.ntracks) {q : List Block} {m : Memory} (hm : m.wf c = true)
    (hb : ∀ b ∈ q, b.wf c = true) (hfit : totalOf c q ≤ c.trackLen) :
    compileTracks c q (compileTracks c q m) = compileTracks c q m := by
  obtain ⟨w1, p1, f1⟩ := compileTracks_bit hc hm hb hfit
  obtain ⟨w2, p2, f2⟩ := compileTracks_bit hc w1 hb hfit
  refine Memory.ext_bits w2 w1 fun k t _ _ => ?_
  by_cases h : ∀ i, inBlock c q i t → ¬ definesTrack q i k
  · rw [f2 k t h, f1 k t h]; split <;> rfl
  · push Not at h
    obtain ⟨i, ⟨b, hi, h1, h2⟩, ⟨b', hi', hk⟩⟩ := h
    rw [hi] at hi'; cases hi'
    obtain ⟨⟨k', v⟩, hv, rfl⟩ := List.mem_map.1 hk
    have a1 := p1 i b hi k' v hv (t - startOf c q i) (by omega)
    have a2 := p2 i b hi k' v hv (t - startOf c q i) (by omega)
    rw [show startOf c q i + (t - startOf c q i) = t by omega] at a1 a2
    simp only [a1, a2]

/-! ### The configuration -/

/-- The bounds of R5 on the tracks and the queue. -/
theorem Config.bounds {c : Config} (hc : c.wf = true) :
    5 ≤ c.ntracks ∧ c.ntracks ≤ 32 ∧ c.trackLen < 2 ^ 32 ∧ c.qmax < 2 ^ 16 := by
  simp only [Config.wf, Bool.and_eq_true, decide_eq_true_eq] at hc
  omega

end Sys2Proof.Machine
end

