-- ==== Sys2Proof/Laws/Agents.lean ====
section
/-! SUPPORT. What the outside agents can do to the state: a port call, a poll, the poll loop of WAIT (spec
41_sequencing.md R131, 60_exceptions.md R194), and the hand-over of EXEC (20_memory.md R52). -/

namespace Sys2Proof.Machine

/-- A port call consumes an answer and changes nothing else. -/
theorem call_frame (s : State) : ∃ env, s.call.2 = { s with env := env } := by
  unfold State.call; split <;> exact ⟨_, rfl⟩

/-- Before a port call the chip at most appends words to the FIFO, and none where the FIFO is quiet. -/
theorem chipStep_frame (s : State) :
    ∃ ws env, s.chipStep = { s with fifo := s.fifo ++ ws, env := env } ∧ (s.fifoQuiet = true → ws = []) := by
  unfold State.chipStep
  split
  · exact ⟨[], s.env, by simp, fun _ => rfl⟩
  · rename_i h
    unfold State.capture
    split <;> exact ⟨_, _, rfl, fun x => absurd x h⟩

/-- One port call: words may have reached the FIFO, none where it is quiet, and nothing else has changed. -/
theorem portCall_frame (s : State) :
    ∃ ws env, s.portCall.2 = { s with fifo := s.fifo ++ ws, env := env } ∧ (s.fifoQuiet = true → ws = []) := by
  obtain ⟨ws, env, h, q⟩ := chipStep_frame s
  obtain ⟨env', h'⟩ := call_frame s.chipStep
  exact ⟨ws, env', by rw [State.portCall, h', h], q⟩

/-- The words in the FIFO at a port call do not depend on the packets that wait. -/
theorem portCall_fifo_cmds (s : State) (cmds : List Packet) :
    ({ s with cmds := cmds } : State).portCall.2.fifo = s.portCall.2.fifo := by
  have hq : ({ s with cmds := cmds } : State).fifoQuiet = s.fifoQuiet := rfl
  simp only [State.portCall, call_fifo, State.chipStep, hq]
  cases s.fifoQuiet with
  | true => rfl
  | false =>
    simp only [Bool.false_eq_true, if_false, State.capture]
    cases s.env.captures <;> rfl

/-- Two port calls, one after another. -/
theorem portCall_twice (s : State) :
    ∃ ws env, s.portCall.2.portCall.2 = { s with fifo := s.fifo ++ ws, env := env } ∧
      (s.fifoQuiet = true → ws = []) ∧ ∃ ws', s.fifo ++ ws = s.portCall.2.fifo ++ ws' := by
  obtain ⟨ws, v, h, q⟩ := portCall_frame s
  obtain ⟨ws', v', h', q'⟩ := portCall_frame s.portCall.2
  refine ⟨ws ++ ws', v', by rw [h', h, List.append_assoc], fun hq => ?_, ws', by rw [h, List.append_assoc]⟩
  rw [q hq, q' (by rw [h]; exact hq)]; rfl

/-- Three port calls, one after another. -/
theorem portCall_thrice (s : State) :
    ∃ ws env, s.portCall.2.portCall.2.portCall.2 = { s with fifo := s.fifo ++ ws, env := env } ∧
      (s.fifoQuiet = true → ws = []) := by
  obtain ⟨ws, v, h, q, -⟩ := portCall_twice s
  obtain ⟨ws', v', h', q'⟩ := portCall_frame s.portCall.2.portCall.2
  refine ⟨ws ++ ws', v', by rw [h', h, List.append_assoc], fun hq => ?_⟩
  rw [q hq, q' (by rw [h]; exact hq)]; rfl

theorem pollDone_running_zero {s : State} (h : s.xport.phase = .running 0) :
    s.pollDone = (true, { s with xport := { s.xport with phase := .finished } }) := by simp [State.pollDone, h]

theorem pollDone_running_succ {s : State} {k : Nat} (h : s.xport.phase = .running (k + 1)) :
    s.pollDone = (false, { s with xport := { s.xport with phase := .running k } }) := by simp [State.pollDone, h]

theorem pollDone_endless {s : State} (h : s.xport.phase = .endless) : s.pollDone = (false, s) := by
  simp [State.pollDone, h]

/-- One round of the poll loop (R131). -/
theorem pollLoop_succ (npoll : Word) (left i : Nat) (s : State) :
    pollLoop npoll (left + 1) i s =
      if answerFailed s.portCall.1 then
        s.portCall.2.raise ⟨.transportError, 4, noTrack, numWord i⟩
      else if s.portCall.2.pollDone.1 then
        State.succeed { s.portCall.2.pollDone.2 with busy := false } [numWord i]
      else pollLoop npoll left (i + 1) s.portCall.2.pollDone.2 := rfl

/-- The poll loop of a finite execution that finishes within the polls left (R131). -/
theorem pollLoop_finish (npoll : Word) : ∀ (k left i : Nat) (s : State), s.xport.phase = .running k → k < left →
    (∀ j ≤ k, pollCompletes s j) →
    ∃ ws env, pollLoop npoll left i s =
      { s with busy := false, xport := { s.xport with phase := .finished }, fifo := s.fifo ++ ws, env := env,
               rsps := s.rsps ++ [[0, numWord (i + k)]] } := by
  intro k
  induction k with
  | zero =>
    intro left i s hp hk hc
    obtain ⟨left, rfl⟩ := Nat.exists_eq_succ_of_ne_zero (by omega : left ≠ 0)
    obtain ⟨ws, env, hf, -⟩ := portCall_frame s
    have h0 : answerFailed s.portCall.1 = false := hc 0 (Nat.le_refl _)
    rw [Nat.succ_eq_add_one, pollLoop_succ, h0, pollDone_running_zero (by rw [hf]; exact hp)]
    exact ⟨ws, env, by rw [hf]; rfl⟩
  | succ k ih =>
    intro left i s hp hk hc
    obtain ⟨left, rfl⟩ := Nat.exists_eq_succ_of_ne_zero (by omega : left ≠ 0)
    obtain ⟨ws, env, hf, -⟩ := portCall_frame s
    have h0 : answerFailed s.portCall.1 = false := hc 0 (by omega)
    have hd := pollDone_running_succ (s := s.portCall.2) (k := k) (by rw [hf]; exact hp)
    have hn : ∀ j ≤ k, pollCompletes s.portCall.2.pollDone.2 j := fun j hj => hc (j + 1) (by omega)
    obtain ⟨ws', env', h'⟩ := ih left (i + 1) s.portCall.2.pollDone.2 (by rw [hd]) (by omega) hn
    rw [Nat.succ_eq_add_one, pollLoop_succ, h0, h', hd, hf]
    exact ⟨ws ++ ws', env', by simp [List.append_assoc, Nat.add_assoc, Nat.add_comm 1 k]⟩

/-- The poll loop of a finite execution that outlasts the polls left (R131). -/
theorem pollLoop_timeout (npoll : Word) : ∀ (left k i : Nat) (s : State), s.xport.phase = .running k → left ≤ k →
    (∀ j < left, pollCompletes s j) →
    ∃ ws env, pollLoop npoll left i s =
      { s with xport := { s.xport with phase := .running (k - left) }, fifo := s.fifo ++ ws, env := env,
               rsps := s.rsps ++ [[0x0000FF20, npoll]] } := by
  intro left
  induction left with
  | zero =>
    intro k i s hp _ _
    refine ⟨[], s.env, ?_⟩
    rw [List.append_nil, Nat.sub_zero, ← hp, ← words_timedOut]; rfl
  | succ left ih =>
    intro k i s hp hk hc
    obtain ⟨k, rfl⟩ := Nat.exists_eq_succ_of_ne_zero (by omega : k ≠ 0)
    obtain ⟨ws, env, hf, -⟩ := portCall_frame s
    have h0 : answerFailed s.portCall.1 = false := hc 0 (by omega)
    have hd := pollDone_running_succ (s := s.portCall.2) (k := k) (by rw [hf]; exact hp)
    have hn : ∀ j < left, pollCompletes s.portCall.2.pollDone.2 j := fun j hj => hc (j + 1) (by omega)
    obtain ⟨ws', env', h'⟩ := ih k (i + 1) s.portCall.2.pollDone.2 (by rw [hd]) (by omega) hn
    rw [pollLoop_succ, h0, h', hd, hf]
    exact ⟨ws ++ ws', env', by simp [List.append_assoc]⟩

/-- The poll loop of an endless execution (R131, R218). -/
theorem pollLoop_endless (npoll : Word) : ∀ (left i : Nat) (s : State), s.xport.phase = .endless →
    (∀ j < left, pollCompletes s j) →
    ∃ ws env, pollLoop npoll left i s =
      { s with fifo := s.fifo ++ ws, env := env, rsps := s.rsps ++ [[0x0000FF20, npoll]] } := by
  intro left
  induction left with
  | zero => intro i s _ _; exact ⟨[], s.env, by rw [List.append_nil, ← words_timedOut]; rfl⟩
  | succ left ih =>
    intro i s hp hc
    obtain ⟨ws, env, hf, -⟩ := portCall_frame s
    have h0 : answerFailed s.portCall.1 = false := hc 0 (by omega)
    have hd := pollDone_endless (s := s.portCall.2) (by rw [hf]; exact hp)
    have hn : ∀ j < left, pollCompletes s.portCall.2.pollDone.2 j := fun j hj => hc (j + 1) (by omega)
    obtain ⟨ws', env', h'⟩ := ih (i + 1) s.portCall.2.pollDone.2 (by rw [hd, hf]; exact hp) hn
    rw [pollLoop_succ, h0, h', hd, hf]
    exact ⟨ws ++ ws', env', by simp [List.append_assoc]⟩

/-- The poll loop ended by a failed poll before the execution is seen to finish (R131). -/
theorem pollLoop_failed (npoll : Word) : ∀ (n left i : Nat) (s : State),
    (s.xport.phase = .endless ∨ ∃ k, s.xport.phase = .running k ∧ n ≤ k) → n < left →
    (∀ j < n, pollCompletes s j) → ¬ pollCompletes s n →
    ∃ ph ws env, pollLoop npoll left i s =
      { s with xport := { s.xport with phase := ph }, fifo := s.fifo ++ ws, env := env,
               rsps := s.rsps ++ [[0x0004FF22, numWord (i + n)]] } := by
  intro n
  induction n with
  | zero =>
    intro left i s _ hl _ hf
    obtain ⟨left, rfl⟩ := Nat.exists_eq_succ_of_ne_zero (by omega : left ≠ 0)
    have h0 : answerFailed s.portCall.1 = true := by simpa [pollCompletes, afterPolls] using hf
    obtain ⟨ws, env, hfr, -⟩ := portCall_frame s
    rw [Nat.succ_eq_add_one, pollLoop_succ, h0, if_pos rfl, hfr, State.raise, words_pollFailed]
    exact ⟨s.xport.phase, ws, env, rfl⟩
  | succ n ih =>
    intro left i s hp hl hc hf
    obtain ⟨left, rfl⟩ := Nat.exists_eq_succ_of_ne_zero (by omega : left ≠ 0)
    obtain ⟨ws, env, hfr, -⟩ := portCall_frame s
    have h0 : answerFailed s.portCall.1 = false := hc 0 (by omega)
    have hd : s.portCall.2.pollDone.1 = false ∧
        (s.portCall.2.pollDone.2.xport.phase = .endless ∨
          ∃ k, s.portCall.2.pollDone.2.xport.phase = .running k ∧ n ≤ k) ∧
        ∃ ph, s.portCall.2.pollDone.2 =
          { s with xport := { s.xport with phase := ph }, fifo := s.fifo ++ ws, env := env } := by
      rcases hp with hp | ⟨k, hp, hk⟩
      · rw [pollDone_endless (by rw [hfr]; exact hp)]
        exact ⟨rfl, .inl (by rw [hfr]; exact hp), s.xport.phase, by rw [hfr]⟩
      · obtain ⟨k, rfl⟩ := Nat.exists_eq_succ_of_ne_zero (by omega : k ≠ 0)
        rw [pollDone_running_succ (k := k) (by rw [hfr]; exact hp)]
        exact ⟨rfl, .inr ⟨k, rfl, by omega⟩, .running k, by rw [hfr]⟩
    obtain ⟨h1, h2, ph, h3⟩ := hd
    obtain ⟨ph', ws', env', r⟩ := ih left (i + 1) s.portCall.2.pollDone.2 h2 (by omega)
      (fun j hj => hc (j + 1) (by omega)) hf
    rw [Nat.succ_eq_add_one, pollLoop_succ, h0, if_neg (by simp), h1, if_neg (by simp), r, h3]
    exact ⟨ph', ws ++ ws', env', by simp [Nat.add_assoc, Nat.add_comm 1 n]⟩

/-- The hand-over: the transport holds the vectors, the length and the count, and plays (R52, R194). -/
theorem startTransport_xport (s : State) (rep : BitVec 16) :
    ∃ ph, (s.startTransport rep).xport = ⟨s.tracks.vectors s.lenreg.toNat, s.lenreg, rep, ph⟩ ∧
      (rep = 0 → ph = .endless) ∧ (rep ≠ 0 → ∃ n, ph = .running n) := by
  unfold State.startTransport
  by_cases h : rep = 0
  · simp [h]
  · simp only [h, if_false]
    split <;> exact ⟨_, rfl, by simp, fun _ => ⟨_, rfl⟩⟩

theorem startTransport_frame (s : State) (rep : BitVec 16) :
    ∃ env, s.startTransport rep = { s with xport := (s.startTransport rep).xport, env := env } := by
  unfold State.startTransport
  split
  · exact ⟨s.env, rfl⟩
  · split <;> exact ⟨_, rfl⟩

end Sys2Proof.Machine
end

