-- ==== Sys2Proof/Laws/Image.lean ====
section
/-! SUPPORT. The fields of a well-formed configuration, the base image and the reversal (spec 40_builder.md R93, R94). -/

namespace Sys2Proof.Machine

theorem Config.covered_once {c : Config} (hc : c.wf = true) {p : Nat} (hp : p < c.globalWidth) :
    (c.gfields.filter fun f => f.covers p).length = 1 := by
  simp only [Config.wf, Config.tiles, Bool.and_eq_true, List.all_eq_true, List.mem_range, beq_iff_eq] at hc
  rw [← List.countP_eq_length_filter]
  exact hc.1.1.1.1.1.1.1.2.2 p hp

/-- The field that covers a bit is the field found there (R5). -/
theorem fieldAt_eq {c : Config} (hc : c.wf = true) {f : Field} (hf : f ∈ c.gfields) {p : Nat}
    (h1 : f.offset ≤ p) (h2 : p < f.offset + f.width) : fieldAt c p = some f := by
  have hcov : f.covers p = true := by simp [Field.covers, h1, h2]
  have hp : p < c.globalWidth := by have := field_fits hc hf; omega
  have hl := Config.covered_once hc hp
  obtain ⟨g, hg⟩ := List.length_eq_one_iff.1 hl
  have hfg : f ∈ [g] := by rw [← hg]; exact List.mem_filter.2 ⟨hf, hcov⟩
  have hfe : f = g := by simpa using hfg
  subst hfe
  cases hq : fieldAt c p with
  | none => exact absurd hcov (by simpa using List.find?_eq_none.1 hq f hf)
  | some x =>
    have hx : x ∈ [f] := by
      rw [← hg]; exact List.mem_filter.2 ⟨List.mem_of_find?_eq_some hq, by simpa using List.find?_some hq⟩
    simpa using hx

/-- Every bit of the global register lies in a field (R5). -/
theorem fieldAt_some {c : Config} (hc : c.wf = true) {p : Nat} (hp : p < c.globalWidth) :
    ∃ f ∈ c.gfields, f.offset ≤ p ∧ p < f.offset + f.width ∧ fieldAt c p = some f := by
  obtain ⟨g, hg⟩ := List.length_eq_one_iff.1 (Config.covered_once hc hp)
  have hm : g ∈ c.gfields.filter fun f => f.covers p := by rw [hg]; simp
  obtain ⟨h1, h2⟩ := List.mem_filter.1 hm
  simp only [Field.covers, Bool.and_eq_true, decide_eq_true_eq] at h2
  exact ⟨g, h1, h2.1, h2.2, fieldAt_eq hc h1 h2.1 h2.2⟩

@[simp] theorem baseImage_length (c : Config) : (baseImage c).length = c.globalWidth := by simp [baseImage]

@[simp] theorem phys_length (c : Config) (img : Bits) : (phys c img).length = c.globalWidth := by simp [phys]

theorem baseImage_getD (c : Config) {p : Nat} (hp : p < c.globalWidth) :
    (baseImage c).getD p false = baseBit c p := by
  simp [baseImage, List.getD_eq_getElem?_getD, hp]

theorem phys_getD (c : Config) (img : Bits) {p : Nat} (hp : p < c.globalWidth) :
    (phys c img).getD p false = physBit c img p := by
  simp [phys, List.getD_eq_getElem?_getD, hp]

/-- `phys(img)[o + j] = img[o + k - 1 - j]` (R94). -/
theorem phys_field {c : Config} (hc : c.wf = true) (img : Bits) {f : Field} (hf : f ∈ c.gfields) {j : Nat}
    (hj : j < f.width) :
    (phys c img).getD (f.offset + j) false = img.getD (f.offset + f.width - 1 - j) false := by
  have := field_fits hc hf
  rw [phys_getD c img (by omega), physBit, fieldAt_eq hc hf (by omega) (by omega)]
  simp only [Nat.add_sub_cancel_left]

end Sys2Proof.Machine
end

