-- ==== Sys2Proof/Laws/Commands.lean ====
section
/-! SUPPORT. What each command can do, said once: it succeeds with the state its rule gives, or it raises an error.
Cite these instead of unfolding a command. -/

namespace Sys2Proof.Machine

/-- ADDG (R96). -/
theorem addg_cases (pl : Placement) (ld mg : Bool) (rs : List FieldRecord) (s : State) :
    (∃ e, addg pl ld mg rs s = s.raise e) ∨
    ∃ idx img, builderIndex 1 pl s = .ok idx ∧
      applyRecords s.cfg idx rs (if mg then s.gsnap else baseImage s.cfg) = .ok img ∧
      addg pl ld mg rs s =
        State.succeed { s.place idx (globalBlock s.cfg img ld) with gsnap := img } [numWord idx] := by
  unfold addg
  split
  · exact .inl ⟨_, rfl⟩
  · split
    · exact .inl ⟨_, rfl⟩
    · exact .inr ⟨_, _, by assumption, by assumption, rfl⟩

/-- ADDP (R97). -/
theorem addp_cases (pl : Placement) (len : Word) (ws : List Word) (s : State) :
    (∃ e, addp pl len ws s = s.raise e) ∨
    ∃ idx b, builderIndex 2 pl s = .ok idx ∧ pixelPattern s.cfg idx len ws = .ok b ∧
      addp pl len ws s = (s.place idx (pixelBlock s.cfg b)).succeed [numWord idx] := by
  unfold addp
  split
  · exact .inl ⟨_, rfl⟩
  · split
    · exact .inl ⟨_, rfl⟩
    · exact .inr ⟨_, _, by assumption, by assumption, rfl⟩

/-- ADDI (R98). -/
theorem addi_cases (pl : Placement) (d : Word) (s : State) :
    (∃ e, addi pl d s = s.raise e) ∨
    ∃ idx, builderIndex 3 pl s = .ok idx ∧ d.toNat ≤ s.cfg.lInject ∧
      addi pl d s = (s.place idx (injectBlock s.cfg d.toNat)).succeed [numWord idx] := by
  unfold addi
  split
  · exact .inl ⟨_, rfl⟩
  · split
    · exact .inl ⟨_, rfl⟩
    · exact .inr ⟨_, by assumption, by omega, rfl⟩

/-- COMPILE (R120). -/
theorem compile_cases (s : State) :
    (∃ e, compile s = s.raise e) ∨
    s.busy = false ∧ s.queue ≠ [] ∧ streamLength s.cfg s.queue ≤ s.cfg.trackLen ∧
      compile s = State.succeed
        { s with
          tracks := compileTracks s.cfg s.queue s.tracks,
          lenreg := BitVec.ofNat 32 (streamLength s.cfg s.queue),
          compiled := true }
        [numWord (streamLength s.cfg s.queue)] := by
  unfold compile
  split
  · exact .inl ⟨_, rfl⟩
  · rename_i hb
    split
    · exact .inl ⟨_, rfl⟩
    · rename_i hq
      dsimp only
      split
      · exact .inl ⟨_, rfl⟩
      · exact .inr ⟨by simpa using hb, by simpa [State.qlen] using hq, by omega, rfl⟩

/-- RESET (R129). -/
theorem reset_cases (mask : Option Word) (s : State) :
    (∃ e, reset mask s = s.raise e) ∨
    s.busy = false ∧ mask.any (maskBeyond s.cfg) = false ∧
      reset mask s = State.succeed
        { s with tracks := s.tracks.clear s.cfg mask, queue := [], lenreg := 0, compiled := false } [] := by
  unfold reset
  split
  · exact .inl ⟨_, rfl⟩
  · rename_i hb
    split
    · exact .inl ⟨_, rfl⟩
    · rename_i hm
      exact .inr ⟨by simpa using hb, by simpa using hm, rfl⟩

/-- EXEC (R130): on success the three calls have been made, and words of a transport that played on may have reached
the FIFO. An error after a transport call leaves the transport, the FIFO and the schedule open. -/
theorem execStream_cases (rep : BitVec 16) (s : State) :
    (∃ e x f d v, execStream rep s = State.raise { s with xport := x, fifo := f, drained := d, env := v } e ∧
      (s.busy = true → x = s.xport ∧ f = s.fifo ∧ d = s.drained)) ∨
    s.busy = false ∧ s.compiled = true ∧ answerFailed s.portCall.1 = false ∧
      answerFailed s.portCall.2.portCall.1 = false ∧ answerFailed s.portCall.2.portCall.2.portCall.1 = false ∧
      ∃ ws v, (s.fifoQuiet = true → ws = []) ∧
        execStream rep s = State.succeed
          { State.startTransport { s with fifo := s.fifo ++ ws, env := v } rep with busy := true, drained := false } [] := by
  have unknown : ∀ (u : State), (∃ ws v, u = { s with fifo := s.fifo ++ ws, env := v }) →
      ∃ x f d v, u.transportUnknown = { s with xport := x, fifo := f, drained := d, env := v } := by
    rintro _ ⟨ws, v, rfl⟩
    unfold State.transportUnknown State.capture
    split <;> exact ⟨_, _, _, _, rfl⟩
  obtain ⟨w1, v1, e1, -⟩ := portCall_frame s
  obtain ⟨w2, v2, e2, -⟩ := portCall_twice s
  obtain ⟨w3, v3, e3, q3⟩ := portCall_thrice s
  unfold execStream
  by_cases hb : s.busy = true
  · rw [if_pos hb]; exact .inl ⟨_, s.xport, s.fifo, s.drained, s.env, rfl, fun _ => ⟨rfl, rfl, rfl⟩⟩
  · rw [if_neg hb]
    by_cases hc : s.compiled = false
    · rw [if_pos hc]; exact .inl ⟨_, s.xport, s.fifo, s.drained, s.env, rfl, fun h => absurd h hb⟩
    · rw [if_neg hc]
      dsimp only
      by_cases a1 : answerFailed s.portCall.1 = true
      · rw [if_pos a1]
        obtain ⟨x, f, d, v, e⟩ := unknown _ ⟨w1, v1, e1⟩
        exact .inl ⟨_, x, f, d, v, by rw [e], fun h => absurd h hb⟩
      · rw [if_neg a1]
        by_cases a2 : answerFailed s.portCall.2.portCall.1 = true
        · rw [if_pos a2]
          obtain ⟨x, f, d, v, e⟩ := unknown _ ⟨w2, v2, e2⟩
          exact .inl ⟨_, x, f, d, v, by rw [e], fun h => absurd h hb⟩
        · rw [if_neg a2]
          by_cases a3 : answerFailed s.portCall.2.portCall.2.portCall.1 = true
          · rw [if_pos a3]
            obtain ⟨x, f, d, v, e⟩ := unknown _ ⟨w3, v3, e3⟩
            exact .inl ⟨_, x, f, d, v, by rw [e], fun h => absurd h hb⟩
          · rw [if_neg a3]
            exact .inr ⟨by simpa using hb, by simpa using hc, by simpa using a1, by simpa using a2,
              by simpa using a3, w3, v3, q3, by rw [e3]⟩

/-- One poll's answer: the transport's phase, or the schedule, may move, and nothing else (R194). -/
theorem pollDone_frame (s : State) :
    ∃ ph v, s.pollDone.2 = { s with xport := { s.xport with phase := ph }, env := v } ∧
      (s.pollDone.1 = false → phasePlaying s.xport.phase = true →
        phasePlaying ph = true ∧ (ph = .endless ↔ s.xport.phase = .endless)) ∧
      (phasePlaying s.xport.phase = false → ph = s.xport.phase) := by
  unfold State.pollDone
  split <;> rename_i h
  · exact ⟨_, _, rfl, by simp, by simp [h, phasePlaying]⟩
  · exact ⟨_, _, rfl, by simp [h, phasePlaying], by simp [h, phasePlaying]⟩
  · exact ⟨s.xport.phase, s.env, rfl, by simp [h, phasePlaying], fun _ => rfl⟩
  · exact ⟨s.xport.phase, s.env, rfl, by simp, fun _ => rfl⟩
  · exact ⟨s.xport.phase, _, rfl, by simp [h, phasePlaying], fun _ => rfl⟩

/-- What the polls of one WAIT may have done by its end: words have reached the FIFO, none where it is quiet, and a
transport that plays nothing has stayed as it was. -/
structure PollsDone (s : State) (ph : Phase) (ws : List Word) : Prop where
  quiet : s.fifoQuiet = true → ws = []
  idle : phasePlaying s.xport.phase = false → ph = s.xport.phase

/-- The poll loop either ends in an error, with BUSY as it was, or clears BUSY and answers the number of the poll
(R131). While no poll has answered done, a playing transport keeps playing. -/
theorem pollLoop_cases (npoll : Word) : ∀ (left i : Nat) (s : State),
    (∃ e ph ws v,
      pollLoop npoll left i s =
        State.raise { s with xport := { s.xport with phase := ph }, fifo := s.fifo ++ ws, env := v } e ∧
      (e.code = .timedOut ∨ e.code = .transportError) ∧ PollsDone s ph ws ∧
      (phasePlaying s.xport.phase = true →
        phasePlaying ph = true ∧ (ph = .endless ↔ s.xport.phase = .endless))) ∨
    ∃ k ph ws v,
      pollLoop npoll left i s =
        State.succeed { s with busy := false, xport := { s.xport with phase := ph }, fifo := s.fifo ++ ws, env := v }
          [numWord (i + k)] ∧
      PollsDone s ph ws ∧ s.xport.phase ≠ .endless := by
  intro left
  induction left with
  | zero =>
    intro i s
    exact .inl ⟨_, s.xport.phase, [], s.env, by rw [List.append_nil]; rfl, .inl rfl, ⟨fun _ => rfl, fun _ => rfl⟩,
      fun h => ⟨h, Iff.rfl⟩⟩
  | succ left ih =>
    intro i s
    obtain ⟨ws, v, hf, hq⟩ := portCall_frame s
    obtain ⟨ph, v', hd, hp, hi⟩ := pollDone_frame s.portCall.2
    have ex : s.portCall.2.xport = s.xport := by rw [hf]
    rw [ex] at hp hi
    rw [pollLoop_succ]
    by_cases a : answerFailed s.portCall.1 = true
    · rw [if_pos a, hf]
      exact .inl ⟨_, s.xport.phase, ws, _, rfl, .inr rfl, ⟨hq, fun _ => rfl⟩, fun h => ⟨h, Iff.rfl⟩⟩
    · rw [if_neg a]
      by_cases b : s.portCall.2.pollDone.1 = true
      · rw [if_pos b, hd, hf]
        refine .inr ⟨0, ph, ws, v', rfl, ⟨hq, hi⟩, fun he => ?_⟩
        rw [pollDone_endless (by rw [ex]; exact he)] at b
        cases b
      · rw [if_neg b]
        have b' := hp (by simpa using b)
        have es : s.portCall.2.pollDone.2 =
            { s with xport := { s.xport with phase := ph }, fifo := s.fifo ++ ws, env := v' } := by rw [hd, hf]
        have next : ∀ {ph' ws'}, PollsDone s.portCall.2.pollDone.2 ph' ws' → PollsDone s ph' (ws ++ ws') := by
          rintro ph' ws' ⟨q, c⟩
          rw [es] at q c
          refine ⟨fun x => ?_, fun x => ?_⟩
          · rw [hq x, q ?_]; rfl
            cases hph : phasePlaying s.xport.phase with
            | true =>
              have hd : s.drained = true := by simpa [State.fifoQuiet, hph] using x
              simp [State.fifoQuiet, hd]
            | false => simp [State.fifoQuiet, hi hph, hph]
          · rw [← hi x]; exact c (by rw [hi x]; exact x)
        rcases ih (i + 1) s.portCall.2.pollDone.2 with ⟨e, ph', f, v2, h1, h2, h3, h4⟩ | ⟨k, ph', f, v2, h1, h2, h3⟩
        · refine .inl ⟨e, ph', ws ++ f, v2, by rw [h1, es, List.append_assoc], h2, next h3, fun hpl => ?_⟩
          rw [es] at h4
          obtain ⟨c1, c2⟩ := b' hpl
          obtain ⟨d1, d2⟩ := h4 c1
          exact ⟨d1, d2.trans c2⟩
        · refine .inr ⟨1 + k, ph', ws ++ f, v2, by rw [h1, es, List.append_assoc, Nat.add_assoc], next h2,
            fun he => ?_⟩
          rw [es] at h3
          exact h3 ((b' (by rw [he]; rfl)).2.2 he)

/-- WAIT (R131). -/
theorem wait_cases (npoll : Word) (s : State) :
    (∃ e ph ws v,
      wait npoll s = State.raise { s with xport := { s.xport with phase := ph }, fifo := s.fifo ++ ws, env := v } e ∧
      e.code ≠ .execBusy ∧ (s.busy = false → ph = s.xport.phase ∧ ws = []) ∧ PollsDone s ph ws ∧
      (phasePlaying s.xport.phase = true →
        phasePlaying ph = true ∧ (ph = .endless ↔ s.xport.phase = .endless))) ∨
    (s.busy = false ∧ wait npoll s = s.succeed [0]) ∨
    (s.busy = true ∧ s.xport.phase ≠ .endless ∧ ∃ k ph ws v, PollsDone s ph ws ∧
      wait npoll s =
        State.succeed { s with busy := false, xport := { s.xport with phase := ph }, fifo := s.fifo ++ ws, env := v }
          [numWord (1 + k)]) := by
  unfold wait
  by_cases h : npoll = 0
  · rw [if_pos h]
    exact .inl ⟨_, s.xport.phase, [], s.env, by rw [List.append_nil], by decide, fun _ => ⟨rfl, rfl⟩,
      ⟨fun _ => rfl, fun _ => rfl⟩, fun h => ⟨h, Iff.rfl⟩⟩
  · rw [if_neg h]
    by_cases hb : s.busy = false
    · rw [if_pos hb]; exact .inr (.inl ⟨hb, rfl⟩)
    · rw [if_neg hb]
      rcases pollLoop_cases npoll npoll.toNat 1 s with ⟨e, ph, f, v, h1, h2, h3, h4⟩ | ⟨k, ph, f, v, h1, h2, h3⟩
      · exact .inl ⟨e, ph, f, v, h1, by rcases h2 with h2 | h2 <;> rw [h2] <;> decide, fun x => absurd x hb, h3, h4⟩
      · exact .inr (.inr ⟨by simpa using hb, h3, k, ph, f, v, h2, h1⟩)

/-- DECODE (R151): words of a transport that plays on may have reached the FIFO, behind those it decodes. -/
theorem decodeFifo_cases (inv : Bool) (s : State) :
    (∃ e ws v, decodeFifo inv s = State.raise { s with fifo := s.fifo ++ ws, env := v } e ∧
      (s.fifoQuiet = true → ws = [])) ∨
    s.busy = false ∧ s.consumed = false ∧ answerFailed s.portCall.1 = false ∧
      ∃ rd ws v, answerWords s.portCall.2.portCall.2.fifo s.portCall.2.portCall.1 = some rd ∧
        s.portCall.2.fifo.length ≤ rd.length ∧ (s.fifoQuiet = true → ws = []) ∧
        decodeFifo inv s =
          State.succeed { s with consumed := true, fifo := s.fifo ++ ws, env := v }
            (numWord (16 * s.portCall.2.fifo.length) ::
              pack32 (deserialize inv (rd.take s.portCall.2.fifo.length))) := by
  obtain ⟨w1, v1, e1, q1⟩ := portCall_frame s
  obtain ⟨w2, v2, e2, q2, -⟩ := portCall_twice s
  have stay : ∀ e, s.raise e = State.raise { s with fifo := s.fifo ++ [], env := s.env } e := by
    intro e; rw [List.append_nil]
  unfold decodeFifo
  by_cases hb : s.busy = true
  · rw [if_pos hb]; exact .inl ⟨_, [], s.env, stay _, fun _ => rfl⟩
  · rw [if_neg hb]
    by_cases hc : s.consumed = true
    · rw [if_pos hc]; exact .inl ⟨_, [], s.env, stay _, fun _ => rfl⟩
    · rw [if_neg hc]
      dsimp only
      by_cases a1 : answerFailed s.portCall.1 = true
      · rw [if_pos a1]; exact .inl ⟨_, w1, v1, by rw [e1], q1⟩
      · rw [if_neg a1]
        cases hw : answerWords s.portCall.2.portCall.2.fifo s.portCall.2.portCall.1 with
        | none => exact .inl ⟨_, w2, v2, by rw [e2], q2⟩
        | some ws =>
          by_cases hl : ws.length < s.portCall.2.fifo.length
          · simp only [hl, if_true]; exact .inl ⟨_, w2, v2, by rw [e2], q2⟩
          · simp only [hl, if_false]
            exact .inr ⟨by simpa using hb, by simpa using hc, by simpa using a1, ws, w2, v2, rfl, by omega, q2,
              by rw [e2]⟩

/-- The words a completed read takes are those that were in the FIFO at the count (R151). -/
theorem answerWords_take {s : State} {rd : List Word}
    (h : answerWords s.portCall.2.portCall.2.fifo s.portCall.2.portCall.1 = some rd)
    (hl : s.portCall.2.fifo.length ≤ rd.length) : rd.take s.portCall.2.fifo.length = s.portCall.2.fifo := by
  obtain ⟨ws, v, e, -, ws', h'⟩ := portCall_twice s
  rw [e] at h
  simp only [h'] at h
  cases ha : s.portCall.2.portCall.1 with
  | ok => rw [ha] at h; simp only [answerWords, Option.some.injEq] at h; rw [← h, List.take_left]
  | fail => rw [ha] at h; cases h
  | short k =>
    rw [ha] at h
    simp only [answerWords, Option.some.injEq] at h
    subst h
    rw [List.length_take] at hl
    rw [List.take_take, Nat.min_eq_left (by omega), List.take_left]

/-- RSTOUT (R157): on an error words of a transport that plays on may have reached the FIFO. -/
theorem rstout_cases (s : State) :
    (∃ e ws v, rstout s = State.raise { s with fifo := s.fifo ++ ws, env := v } e ∧
      (s.fifoQuiet = true → ws = [])) ∨
    s.busy = false ∧ answerFailed s.portCall.1 = false ∧
      ∃ v, rstout s = State.succeed { s with fifo := [], consumed := false, drained := true, env := v } [] := by
  obtain ⟨ws, v, h, q⟩ := portCall_frame s
  unfold rstout
  by_cases hb : s.busy = true
  · rw [if_pos hb]; exact .inl ⟨_, [], s.env, by rw [List.append_nil], fun _ => rfl⟩
  · rw [if_neg hb]
    dsimp only
    by_cases a : answerFailed s.portCall.1 = true
    · rw [if_pos a, h]; exact .inl ⟨_, ws, v, rfl, q⟩
    · rw [if_neg a, h]; exact .inr ⟨by simpa using hb, by simpa using a, v, rfl⟩

/-- RDTRK (R171). -/
theorem rdtrk_cases (trk : BitVec 5) (start count : Word) (s : State) :
    (∃ e, rdtrk trk start count s = s.raise e ∧ e.code ≠ .execBusy) ∨
    trk.toNat < s.cfg.ntracks ∧ start.toNat + count.toNat ≤ s.cfg.trackLen ∧
      rdtrk trk start count s = s.succeed (pack32 (s.tracks.read trk.toNat start.toNat count.toNat)) := by
  unfold rdtrk
  split
  · exact .inl ⟨_, rfl, nofun⟩
  · split
    · exact .inl ⟨_, rfl, nofun⟩
    · exact .inr ⟨by omega, by omega, rfl⟩

end Sys2Proof.Machine
end

