-- ==== Sys2Proof/Laws/Encoding.lean ====
section
/-! SUPPORT. The fields of an encoded header, the field records of an encoded ADDG, and packet lengths (spec
30_encoding.md R61 to R76). -/

namespace Sys2Proof

open Machine (ceil32 slice)

theorem placeBits_lt (pl : Placement) : placeBits pl < 2 ^ 27 + 2 ^ 16 := by
  cases pl with
  | none => simp [placeBits]
  | some p => have := p.isLt; simp only [placeBits]; omega

theorem headerBits_lt (i : Instr) (h : i.wf = true) : headerBits i < 2 ^ 32 := by
  cases i with
  | addg pl ld mg rs =>
    simp only [Instr.wf, Bool.and_eq_true, decide_eq_true_eq] at h
    cases pl with
    | none => simp only [headerBits, placeBits]; split <;> split <;> omega
    | some p => have := p.isLt; simp only [headerBits, placeBits]; split <;> split <;> omega
  | addp pl _ _ => have := placeBits_lt pl; simp only [headerBits]; omega
  | addi pl _ => have := placeBits_lt pl; simp only [headerBits]; omega
  | compile => decide
  | reset m => cases m <;> simp [headerBits]
  | exec rep => have := rep.isLt; simp only [headerBits]; omega
  | wait _ => simp [headerBits]
  | decode inv => cases inv <;> simp [headerBits]
  | rstout => decide
  | status => decide
  | rdtrk trk _ _ => have := trk.isLt; simp only [headerBits]; omega

/-- The header of a well-formed command as an integer; rewrite with this, then each field is linear arithmetic. -/
theorem encode_header_toNat (i : Instr) (h : i.wf = true) : (encode i).header.toNat = headerBits i := by
  unfold encode
  rw [BitVec.toNat_ofNat, Nat.mod_eq_of_lt (headerBits_lt i h)]

@[simp] theorem encode_payload (i : Instr) : (encode i).payload = payloadWords i := rfl

/-- The opcode of an encoded command is its row's (R62). -/
theorem encode_opcodeOf (i : Instr) (h : i.wf = true) : opcodeOf (encode i).header = i.opcode := by
  have hh := encode_header_toNat i h
  simp only [opcodeOf, slice, hh]
  cases i with
  | addg pl ld mg rs =>
    simp only [Instr.wf, Bool.and_eq_true, decide_eq_true_eq] at h
    cases pl with
    | none => simp only [headerBits, placeBits, Instr.opcode]; split <;> split <;> omega
    | some p => have := p.isLt; simp only [headerBits, placeBits, Instr.opcode]; split <;> split <;> omega
  | addp pl _ _ => have := placeBits_lt pl; simp only [headerBits, Instr.opcode]; omega
  | addi pl _ => have := placeBits_lt pl; simp only [headerBits, Instr.opcode]; omega
  | compile => rfl
  | reset m => cases m <;> simp [headerBits, Instr.opcode]
  | exec rep => have := rep.isLt; simp only [headerBits, Instr.opcode]; omega
  | wait _ => simp [headerBits, Instr.opcode]
  | decode inv => cases inv <;> simp [headerBits, Instr.opcode]
  | rstout => rfl
  | status => rfl
  | rdtrk trk _ _ => have := trk.isLt; simp only [headerBits, Instr.opcode]; omega

theorem recordWord_toNat (r : FieldRecord) : (recordWord r).toNat = r.fid.toNat * 2 ^ 16 + r.len.toNat := by
  rw [recordWord, BitVec.toNat_append, ← Nat.shiftLeft_add_eq_or_of_lt r.len.isLt, Nat.shiftLeft_eq]

theorem recordWord_len (r : FieldRecord) : slice (recordWord r) 15 0 = r.len.toNat := by
  simp only [slice, recordWord_toNat]; have := r.len.isLt; omega

theorem recordWord_fid (r : FieldRecord) : slice (recordWord r) 31 16 = r.fid.toNat := by
  simp only [slice, recordWord_toNat]; have := r.len.isLt; have := r.fid.isLt; omega

/-- The records of an encoded ADDG read back (R64). -/
theorem decodeRecords_payload (rs : List FieldRecord) (h : rs.all FieldRecord.wf = true) :
    decodeRecords rs.length (rs.flatMap fun r => recordWord r :: r.words) = some rs := by
  induction rs with
  | nil => rfl
  | cons r rs ih =>
    simp only [List.all_cons, Bool.and_eq_true, FieldRecord.wf, beq_iff_eq] at h
    simp only [List.length_cons, List.flatMap_cons, List.cons_append, decodeRecords, recordWord_len, recordWord_fid,
      ← h.1]
    rw [if_neg (by simp), List.drop_left, List.take_left, ih (by simpa [FieldRecord.wf] using h.2)]
    simp

/-- The records of an encoded ADDG have the length R76 reads from them. -/
theorem recordsLength_payload (rs : List FieldRecord) (h : rs.all FieldRecord.wf = true) (pre : List Word) :
    recordsLength rs.length pre.length
        (fun i => (pre ++ (rs.flatMap fun r => recordWord r :: r.words)).getD i 0) =
      (rs.flatMap fun r => recordWord r :: r.words).length := by
  induction rs generalizing pre with
  | nil => rfl
  | cons r rs ih =>
    simp only [List.all_cons, Bool.and_eq_true, FieldRecord.wf, beq_iff_eq] at h
    have hg : (pre ++ ((r :: rs).flatMap fun r => recordWord r :: r.words)).getD pre.length 0 = recordWord r := by
      simp [List.getD_eq_getElem?_getD]
    have := ih (by simpa [FieldRecord.wf] using h.2) (pre ++ recordWord r :: r.words)
    simp only [List.length_cons, recordsLength]
    rw [hg, recordWord_len, ← h.1]
    have hl : (pre ++ recordWord r :: r.words).length = pre.length + (1 + r.words.length) := by simp; omega
    rw [hl] at this
    simp only [List.flatMap_cons, List.append_assoc, List.cons_append] at this ⊢
    rw [this]
    simp only [List.length_cons, List.length_append]; omega

/-- Records that decode are well-formed, as many as asked, and encode back (R64). -/
theorem decodeRecords_encode {n : Nat} {ws : List Word} {rs : List FieldRecord} (h : decodeRecords n ws = some rs) :
    rs.length = n ∧ rs.all FieldRecord.wf = true ∧ (rs.flatMap fun r => recordWord r :: r.words) = ws := by
  induction n generalizing ws rs with
  | zero =>
    cases ws with
    | nil => simp only [decodeRecords, Option.some.injEq] at h; subst h; simp
    | cons w ws => cases h
  | succ n ih =>
    cases ws with
    | nil => cases h
    | cons w ws =>
      simp only [decodeRecords] at h
      by_cases hl : ws.length < ceil32 (slice w 15 0)
      · rw [if_pos hl] at h; cases h
      · rw [if_neg hl, Option.map_eq_some_iff] at h
        obtain ⟨rs', h', rfl⟩ := h
        obtain ⟨i1, i2, i3⟩ := ih h'
        have hw : (BitVec.ofNat 16 (slice w 31 16) ++ BitVec.ofNat 16 (slice w 15 0) : BitVec 32) = w := by
          apply BitVec.eq_of_toNat_eq
          have := w.isLt
          rw [BitVec.toNat_append, ← Nat.shiftLeft_add_eq_or_of_lt (BitVec.isLt _), Nat.shiftLeft_eq]
          simp only [BitVec.toNat_ofNat, slice]
          omega
        have hlen : slice w 15 0 % 2 ^ 16 = slice w 15 0 := by simp only [slice]; omega
        refine ⟨by simp [i1], ?_, ?_⟩
        · simp only [List.all_cons, i2, Bool.and_true, FieldRecord.wf, BitVec.toNat_ofNat, hlen, beq_iff_eq,
            List.length_take]
          omega
        · rw [List.flatMap_cons, i3, List.cons_append, List.take_append_drop]
          exact congrArg (· :: ws) hw

/-- `P` and `POS` of a legal builder header read back (R61). -/
theorem placement_toNat {h : Word} (hl : placementLegal h = true) :
    placeBits (placementOf h) = slice h 27 27 * 2 ^ 27 + slice h 15 0 := by
  simp only [placementLegal, Bool.or_eq_true, beq_iff_eq] at hl
  simp only [placementOf]
  have hb : slice h 27 27 < 2 := by simp only [slice]; omega
  have hp : slice h 15 0 < 2 ^ 16 := by simp only [slice]; omega
  by_cases e : slice h 27 27 = 1
  · rw [if_pos e, placeBits, BitVec.toNat_ofNat, Nat.mod_eq_of_lt hp, e]; omega
  · rw [if_neg e, placeBits]
    rcases hl with hl | hl
    · exact absurd hl e
    · omega

/-- `P` and `POS` read back from a header whose other fields are `x` in bits 26 to 16 (R61). -/
theorem placement_ofNat (pl : Placement) {h : Word} {x : Nat} (hx : x < 2 ^ 11)
    (e : h.toNat % 2 ^ 28 = placeBits pl + x * 2 ^ 16) : placementLegal h = true ∧ placementOf h = pl := by
  cases pl with
  | none =>
    have a : slice h 27 27 = 0 := by simp only [placeBits] at e; simp only [slice]; omega
    have b : slice h 15 0 = 0 := by simp only [placeBits] at e; simp only [slice]; omega
    simp [placementLegal, placementOf, a, b]
  | some p =>
    have := p.isLt
    have a : slice h 27 27 = 1 := by simp only [placeBits] at e; simp only [slice]; omega
    have b : slice h 15 0 = p.toNat := by simp only [placeBits] at e; simp only [slice]; omega
    simp [placementLegal, placementOf, a, b]

end Sys2Proof
end

