-- ==== Sys2Proof/Laws/Legality.lean ====
section
/-! SUPPORT. When a packet is a command: reserved header bits, positions and record lengths, in the terms of the
statements (spec 30_encoding.md R76, R77). -/

namespace Sys2Proof

open Machine

/-- The reserved header bits are clear exactly when no reserved bit is 1 (R63 to R74). -/
theorem reservedBitsClear_iff (h : Word) : reservedBitsClear h = true ↔ ∀ i, reservedBit (opcodeOf h) i = true → h.getLsbD i = false := by
  unfold reservedBitsClear reservedBit
  split <;> rename_i ho <;> simp only [ho, beq_iff_eq, Bool.and_eq_true, decide_eq_true_eq]
  all_goals first
    | (rw [slice_eq_zero_iff _ _ _ (by omega), slice_eq_zero_iff _ _ _ (by omega)]
       constructor
       · rintro ⟨a, b⟩ i (hi | hi)
         · exact a i hi.1 hi.2
         · exact b i (by omega) hi
       · intro a; exact ⟨fun i h1 h2 => a i (.inl ⟨h1, h2⟩), fun i h1 h2 => a i (.inr h2)⟩)
    | (rw [slice_eq_zero_iff _ _ _ (by omega)]
       constructor
       · intro a i hi; exact a i (by omega) (by omega)
       · intro a i h1 h2; exact a i (by omega))
    | skip
  simp

/-- Records decode exactly when the payload has the length R76 reads from them (R64, R76). -/
theorem decodeRecords_isSome_iff (n : Nat) : ∀ (ws pre : List Word), (∃ rs, decodeRecords n ws = some rs) ↔
    ws.length = recordsLength n pre.length (fun i => (pre ++ ws).getD i 0) := by
  induction n with
  | zero => intro ws pre; cases ws <;> simp [decodeRecords, recordsLength]
  | succ n ih =>
    intro ws pre
    cases ws with
    | nil => simp [decodeRecords, recordsLength]; omega
    | cons w ws =>
      have hg : (pre ++ w :: ws).getD pre.length 0 = w := by simp [List.getD_eq_getElem?_getD]
      simp only [decodeRecords, recordsLength, hg]
      by_cases hl : ws.length < ceil32 (slice w 15 0)
      · simp only [hl, if_true]; simp; omega
      · simp only [hl, if_false, Option.map_eq_some_iff]
        have hd := ih (ws.drop (ceil32 (slice w 15 0))) (pre ++ w :: ws.take (ceil32 (slice w 15 0)))
        have e : pre ++ w :: ws.take (ceil32 (slice w 15 0)) ++ ws.drop (ceil32 (slice w 15 0)) = pre ++ w :: ws := by
          rw [List.append_assoc, List.cons_append, List.take_append_drop]
        rw [e] at hd
        have hlen : (pre ++ w :: ws.take (ceil32 (slice w 15 0))).length = pre.length + (1 + ceil32 (slice w 15 0)) := by
          simp; omega
        rw [hlen] at hd
        constructor
        · rintro ⟨_, rs, h, _⟩
          have := hd.1 ⟨rs, h⟩
          simp at this ⊢; omega
        · intro h
          obtain ⟨rs, h⟩ := hd.2 (by simp at h ⊢; omega)
          exact ⟨_, rs, h, rfl⟩

/-- A builder header is legal unless `P = 0` and `POS ≠ 0` (R77). -/
theorem placementLegal_iff (h : Word) : placementLegal h = true ↔ ¬ (h.getLsbD 27 = false ∧ h.toNat % 2^16 ≠ 0) := by
  have a : slice h 27 27 = 1 ↔ h.getLsbD 27 = true := by
    rw [BitVec.getLsbD, Nat.testBit_eq_decide_div_mod_eq, decide_eq_true_eq, slice]; rfl
  have b : slice h 15 0 = h.toNat % 2^16 := by simp only [slice]; omega
  simp only [placementLegal, Bool.or_eq_true, beq_iff_eq, a, b]
  cases h.getLsbD 27 <;> simp

end Sys2Proof
end

