-- ==== Sys2Proof/Laws/PerInstr.lean ====
section
/-! SUPPORT. One lemma per command: the header of a well-formed command carries the opcode of its row in bits 31 to 28,
and no header of another row does (spec 30_encoding.md R61, R62). -/

namespace Sys2Proof.Laws.Opcode

/-- The encoded header's opcode is the command's, and it is none of the reserved ones (R62). -/
def Statement (i : Instr) : Prop :=
  i.wf = true → opcodeOf (encode i).header = i.opcode ∧ 1 ≤ i.opcode ∧ i.opcode ≤ 11

theorem of_opcode (i : Instr) (h : 1 ≤ i.opcode ∧ i.opcode ≤ 11) : Statement i :=
  fun hw => ⟨encode_opcodeOf i hw, h⟩

theorem addg (pl : Placement) (ld mg : Bool) (rs : List FieldRecord) : Statement (.addg pl ld mg rs) :=
  of_opcode _ (by simp [Instr.opcode])
theorem addp (pl : Placement) (len : Word) (ws : List Word) : Statement (.addp pl len ws) := of_opcode _ (by simp [Instr.opcode])
theorem addi (pl : Placement) (d : Word) : Statement (.addi pl d) := of_opcode _ (by simp [Instr.opcode])
theorem compile : Statement .compile := of_opcode _ (by simp [Instr.opcode])
theorem reset (m : Option Word) : Statement (.reset m) := of_opcode _ (by simp [Instr.opcode])
theorem exec (rep : BitVec 16) : Statement (.exec rep) := of_opcode _ (by simp [Instr.opcode])
theorem wait (n : Word) : Statement (.wait n) := of_opcode _ (by simp [Instr.opcode])
theorem decode (inv : Bool) : Statement (.decode inv) := of_opcode _ (by simp [Instr.opcode])
theorem rstout : Statement .rstout := of_opcode _ (by simp [Instr.opcode])
theorem status : Statement .status := of_opcode _ (by simp [Instr.opcode])
theorem rdtrk (trk : BitVec 5) (start count : Word) : Statement (.rdtrk trk start count) := of_opcode _ (by simp [Instr.opcode])

end Sys2Proof.Laws.Opcode
end

