-- ==== Sys2Proof/Laws/Readout.lean ====
section
/-! SUPPORT. The bits that DECODE answers, the bits that RDTRK reads, and the status word (spec 42_readout.md R151 to
R155, 20_memory.md R42, 10_state.md R28). -/

namespace Sys2Proof.Machine

/-- The bits of one FIFO word before inversion: its low half, most significant bit first (R150, R151). -/
def halfBits (w : Word) : Bits := msbVec 8 (slice w 15 8) ++ msbVec 8 (slice w 7 0)

@[simp] theorem halfBits_length (w : Word) : (halfBits w).length = 16 := by simp [halfBits]

theorem halfBits_getD (w : Word) (j : Nat) (h : j < 16) : (halfBits w).getD j false = w.getLsbD (15 - j) := by
  simp only [halfBits, List.getD_eq_getElem?_getD]
  rcases Nat.lt_or_ge j 8 with h1 | h1
  · rw [List.getElem?_append_left (by simpa using h1), ← List.getD_eq_getElem?_getD, msbVec_getD _ _ _ h1,
      slice_testBit, decide_eq_true (by omega), Bool.true_and]
    congr 1; omega
  · rw [List.getElem?_append_right (by simpa using h1), ← List.getD_eq_getElem?_getD, msbVec_length,
      msbVec_getD _ _ _ (by omega), slice_testBit, decide_eq_true (by omega), Bool.true_and]
    congr 1; omega

theorem weave_bits (ws : List Word) : (weave ws).flatMap (msbVec 8) = ws.flatMap halfBits := by
  induction ws with
  | nil => rfl
  | cons w ws ih =>
    simp only [weave, List.flatMap_cons, List.cons_append, List.nil_append] at ih ⊢
    rw [ih, halfBits, List.append_assoc]

/-- Element `n i + j` of the concatenation of lists of `n` elements is element `j` of list `i`. -/
theorem flatMap_getD (f : Word → Bits) (n : Nat) (hf : ∀ w, (f w).length = n) :
    ∀ (ws : List Word) (i j : Nat), i < ws.length → j < n →
      (ws.flatMap f).getD (n * i + j) false = (f (ws.getD i 0)).getD j false := by
  intro ws
  induction ws with
  | nil => intro i j h; simp at h
  | cons w ws ih =>
    intro i j hi hj
    cases i with
    | zero => simp [List.getD_eq_getElem?_getD, List.getElem?_append_left, hf, hj]
    | succ i =>
      have := ih i j (by simpa using hi) hj
      simp only [List.getD_eq_getElem?_getD, List.flatMap_cons] at this ⊢
      rw [List.getElem?_append_right (by rw [hf, Nat.mul_succ]; omega), hf,
        show n * (i + 1) + j - n = n * i + j by rw [Nat.mul_succ]; omega, this]
      simp

@[simp] theorem deserialize_length (inv : Bool) (ws : List Word) : (deserialize inv ws).length = 16 * ws.length := by
  have h : (ws.flatMap halfBits).length = 16 * ws.length := by
    induction ws with
    | nil => rfl
    | cons w ws ih => rw [List.flatMap_cons, List.length_append, ih, halfBits_length, List.length_cons]; omega
  unfold deserialize
  rw [weave_bits]
  dsimp only
  split
  · rw [List.length_map, h]
  · exact h

/-- `out[16 i + j]` is bit `15 - j` of word `i`, complemented when `INV = 1` (R151, R152). -/
theorem deserialize_getD (inv : Bool) (ws : List Word) (i j : Nat) (hi : i < ws.length) (hj : j < 16) :
    (deserialize inv ws).getD (16 * i + j) false = Bool.xor inv ((ws.getD i 0).getLsbD (15 - j)) := by
  have hl := deserialize_length inv ws
  have h := flatMap_getD halfBits 16 halfBits_length ws i j hi hj
  rw [halfBits_getD _ _ hj] at h
  unfold deserialize at hl ⊢
  rw [weave_bits] at hl ⊢
  cases inv with
  | false => simpa using h
  | true =>
    simp only [if_true, List.length_map] at hl ⊢
    rw [List.getD_eq_getElem?_getD, List.getElem?_map, List.getElem?_eq_getElem (by omega)]
    rw [List.getD_eq_getElem?_getD, List.getElem?_eq_getElem (by omega)] at h
    simp only [Option.getD_some, Option.map_some] at h ⊢
    rw [h]; simp

/-- A read inside a track has the length asked (R42). -/
theorem Memory.read_length {c : Config} {m : Memory} (h : m.wf c = true) (k t n : Nat) (hk : k < c.ntracks)
    (ht : t + n ≤ c.trackLen) : (m.read k t n).length = n := by
  rw [Memory.read, List.length_take, List.length_drop, Memory.wf_row h k hk]; omega

/-- Element `j` of a read is the track's bit (R42). -/
theorem Memory.read_getD (m : Memory) (k t n j : Nat) :
    (m.read k t n).getD j false = if j < n then m.bit k (t + j) else false := by
  simp only [Memory.read, Memory.bit, List.getD_eq_getElem?_getD, List.getElem?_take, List.getElem?_drop]
  split <;> simp

theorem toNat_append_bool (n : Nat) (x : BitVec n) (b : Bool) :
    (x ++ BitVec.ofBool b).toNat = 2 * x.toNat + b.toNat := by
  rw [BitVec.toNat_append, ← Nat.shiftLeft_add_eq_or_of_lt (BitVec.isLt _), Nat.shiftLeft_eq]
  simp; omega

/-- The status word as an integer (R28). -/
theorem statusWord_toNat (s : State) :
    (statusWord s).toNat =
      s.qlen % 2 ^ 16 * 2 ^ 16 + 4 * s.consumed.toNat + 2 * s.compiled.toNat + s.busy.toNat := by
  unfold statusWord
  erw [toNat_append_bool, toNat_append_bool, toNat_append_bool]
  rw [BitVec.toNat_append, ← Nat.shiftLeft_add_eq_or_of_lt (BitVec.isLt _), Nat.shiftLeft_eq]
  simp; omega

end Sys2Proof.Machine
end

