-- ==== Sys2Proof/Tests/Slice0.lean ====
section
/-! SUPPORT. Tests. The expected packets, responses and patterns come from spec 95_test_vectors.md (the id of the vector
stands before each test) and from the layouts of 30_encoding.md. After them, for every statement with hypotheses, a
concrete input that meets them all. -/

namespace Sys2Proof.Tests

set_option Elab.async false

open Sys2Proof Sys2Proof.Machine

/-! ### Helpers -/

/-- CFG_S of 95_test_vectors.md section 0. -/
def cfgS : Config where
  globalWidth  := 8
  gfields      := [⟨"f0", 0, 3, false⟩, ⟨"f1", 3, 5, false⟩]
  debugUnit    := [false]
  pixelWidth   := 8
  lInject      := 16
  ntracks      := 5
  trackLen     := 512
  qmax         := 4
  pollInterval := 10

/-- CFG_B of 95_test_vectors.md section 0. -/
def cfgB : Config where
  globalWidth  := 12
  gfields      := [⟨"f0", 0, 4, false⟩, ⟨"f1", 4, 6, true⟩, ⟨"f2", 10, 2, false⟩]
  debugUnit    := [true, false]
  pixelWidth   := 8
  lInject      := 16
  ntracks      := 5
  trackLen     := 256
  qmax         := 8
  pollInterval := 10

/-- Bits from 0s and 1s, in index order. -/
def bits (l : List Nat) : Bits := l.map (· == 1)

/-- The state after power-on, `reset` and `rstout`: all tracks 0, the FIFO empty. -/
def ready (c : Config) : State where
  cfg      := c
  queue    := []
  gsnap    := baseImage c
  lenreg   := 0
  busy     := false
  compiled := false
  consumed := false
  tracks   := List.replicate c.ntracks (List.replicate c.trackLen false)
  xport    := ⟨[], 0, 0, .idle⟩
  fifo     := []
  drained  := true
  env      := ⟨[], [], [], 0⟩
  cmds     := []
  rsps     := []

/-- The state with the queue `q`. -/
def withQueue (s : State) (q : List Block) : State := { s with queue := q }

/-- The state with the stream of its queue on the tracks. -/
def compiledState (s : State) : State :=
  { s with
    tracks := compileTracks s.cfg s.queue s.tracks,
    lenreg := BitVec.ofNat 32 (streamLength s.cfg s.queue),
    compiled := true }

/-- The state while the transport plays its stream with the phase `ph`. -/
def playing (s : State) (rep : BitVec 16) (ph : Phase) : State :=
  { s with busy := true, drained := false, xport := ⟨s.tracks.vectors s.lenreg.toNat, s.lenreg, rep, ph⟩ }

/-- The state after a failed EXEC that left the transport playing (U7), with these words to come. -/
def leftPlaying (s : State) (captures : List (List Word)) : State :=
  { playing s 1 (.running 9) with busy := false, env := { s.env with captures := captures } }

/-- The state in which the next port calls answer as listed. -/
def answering (s : State) (l : List Answer) : State := { s with env := { s.env with answers := l } }

/-- The response of one step on a packet. -/
def answer (s : State) (h : Word) (payload : List Word) : Option Response :=
  match step { s with cmds := [⟨h, payload⟩] } with
  | .next t => t.rsps.getLast?
  | .fault _ => none
  | .refused _ => none

/-- The state after one step on a packet. -/
def after (s : State) (h : Word) (payload : List Word) : State :=
  match step { s with cmds := [⟨h, payload⟩] } with
  | .next t => t
  | .fault _ => s
  | .refused _ => s

/-- The Pixel block of `addp 0xA5` (B-11). -/
def pA5 : Block := ⟨.pixel, 8, [(0, bits [1,0,1,0, 0,1,0,1]), (1, bits [1,1,1,1, 1,1,1,1])]⟩

/-- The Inject block of `addi 4` (B-19). -/
def i4 : Block := ⟨.inject, 16, [(4, bits [0,0,0,0, 1,1,1,1, 1,1,1,1, 1,1,1,1])]⟩

/-- The Global block of `addg f0=6, f1=3` (B-1). -/
def g63 : Block :=
  ⟨.global, 10, [(0, bits [0,1,1,1, 1,0,0,0, 0,0]), (1, bits [1,1,1,1, 1,1,1,1, 0,0]),
    (2, bits [0,0,0,0, 0,0,0,0, 0,1]), (3, bits [0,0,0,0, 0,0,0,0, 0,0])]⟩

/-! ### What WellFormed refuses -/

theorem test_wf_refuses_512_records :
    (Instr.addg none false false (List.replicate 512 ⟨0, 0, []⟩)).wf = false := by decide +kernel

theorem test_wf_refuses_record_with_missing_word : (Instr.addg none false false [⟨0, 33, [1]⟩]).wf = false := by
  decide

theorem test_wf_refuses_addp_with_extra_word : (Instr.addp none 8 [0, 0]).wf = false := by decide

theorem test_wf_accepts_the_limits :
    (Instr.addg none false false (List.replicate 511 ⟨0, 0, []⟩)).wf = true ∧
      (Instr.addg none false false [⟨0, 33, [1, 2]⟩]).wf = true := by decide +kernel

/-- One configuration for each constraint of R5, broken. -/
theorem test_config_checks :
    [{ cfgS with globalWidth := 0, gfields := [] },
     { cfgS with gfields := [⟨"f0", 0, 3, false⟩, ⟨"f1", 4, 4, false⟩] },
     { cfgS with gfields := [⟨"f0", 0, 4, false⟩, ⟨"f1", 3, 5, false⟩] },
     { cfgS with gfields := [⟨"f0", 0, 3, false⟩, ⟨"f1", 3, 6, false⟩] },
     { cfgS with gfields := [⟨"f0", 0, 3, false⟩, ⟨"f1", 3, 5, false⟩, ⟨"f2", 8, 0, false⟩] },
     { cfgS with debugUnit := [] },
     { cfgS with pixelWidth := 0 },
     { cfgS with lInject := 0 },
     { cfgS with ntracks := 4 },
     { cfgS with ntracks := 33 },
     { cfgS with trackLen := 0 },
     { cfgS with qmax := 65536 },
     { cfgS with pollInterval := 0 }].all (fun c => !c.wf) = true ∧ cfgS.wf = true ∧ cfgB.wf = true := by
  decide +kernel

/-! ### Decoding (30_encoding.md R63 to R76) -/

/-- ADDG: opcode 0001, P 1, LD 1, MG 1, NUPD 000000010, POS 3; the records of R80. -/
theorem test_decode_addg :
    decode ⟨0b00011110000000100000000000000011, [0x00000003, 0x00000006, 0x00010005, 0x00000003]⟩ =
      .ok (.addg (some 3) true true [⟨0, 3, [6]⟩, ⟨1, 5, [3]⟩]) := by decide

/-- ADDP: opcode 0010, P 0; LEN 40 takes two words, the first most significant. -/
theorem test_decode_addp :
    decode ⟨0b00100000000000000000000000000000, [40, 0xAB, 0xCDEF0123]⟩ =
      .ok (.addp none 40 [0xAB, 0xCDEF0123]) := by decide

/-- ADDI: opcode 0011, P 1, POS 0xFFFF. -/
theorem test_decode_addi :
    decode ⟨0b00111000000000001111111111111111, [7]⟩ = .ok (.addi (some 0xFFFF) 7) := by decide

theorem test_decode_compile : decode ⟨0b01000000000000000000000000000000, []⟩ = .ok .compile := by decide

/-- RESET: opcode 0101, S 0 and S 1. -/
theorem test_decode_reset :
    decode ⟨0b01010000000000000000000000000000, []⟩ = .ok (.reset none) ∧
      decode ⟨0b01011000000000000000000000000000, [0]⟩ = .ok (.reset (some 0)) := by decide

/-- EXEC: opcode 0110, REPEAT in bits 15 to 0. -/
theorem test_decode_exec : decode ⟨0b01100000000000001000000000000010, []⟩ = .ok (.exec 0x8002) := by decide

theorem test_decode_wait : decode ⟨0b01110000000000000000000000000000, [5]⟩ = .ok (.wait 5) := by decide

/-- DECODE: opcode 1000, INV in bit 0. -/
theorem test_decode_decode :
    decode ⟨0b10000000000000000000000000000000, []⟩ = .ok (.decode false) ∧
      decode ⟨0b10000000000000000000000000000001, []⟩ = .ok (.decode true) := by decide

theorem test_decode_rstout : decode ⟨0b10010000000000000000000000000000, []⟩ = .ok .rstout := by decide

theorem test_decode_status : decode ⟨0b10100000000000000000000000000000, []⟩ = .ok .status := by decide

/-- RDTRK: opcode 1011, TRK in bits 20 to 16. -/
theorem test_decode_rdtrk :
    decode ⟨0b10110000000100010000000000000000, [1, 2]⟩ = .ok (.rdtrk 17 1 2) := by decide

/-- ENC-1 to ENC-17: each packet is refused. -/
theorem test_decode_refuses :
    ([⟨0x00000000, []⟩, ⟨0xC0000000, []⟩, ⟨0xFFFFFFFF, []⟩, ⟨0x40000001, []⟩, ⟨0x40000000, [0]⟩, ⟨0x70000000, []⟩,
      ⟨0xA0000001, []⟩, ⟨0x10010000, [3]⟩, ⟨0x20000001, [8, 1]⟩, ⟨0x20000000, [8]⟩, ⟨0x30000000, [1, 2]⟩,
      ⟨0x50000001, []⟩, ⟨0x50000000, [0]⟩, ⟨0x60010001, []⟩, ⟨0x80000002, []⟩, ⟨0x90000000, [0]⟩,
      ⟨0xB0000001, [0, 0]⟩] : List Packet).all
        (fun p => match decode p with
          | .ok _ => false
          | .error _ => true) = true := by decide

/-- The host's numbering: the header is the lowest 32 bits, and operand words above `nbits` are 0. -/
theorem test_table_words :
    decodeTableWord 32 0x10000000 = some (.addg none false false []) ∧
      decodeTableWord 64 0x2000000000 = none ∧
      decodeTableWord 64 0x0000000820000000 = some (.addp none 8 [0]) ∧
      decodeTableWord 32 0xB0030000 = some (.rdtrk 3 0 0) := by decide +kernel

/-! ### One step of each command -/

/-- ENC-8. -/
theorem test_illegal_command : answer (ready cfgS) 0x10010000 [3] = some [0x0000FF01, 0x10010000] := by decide +kernel

/-- B-1. -/
theorem test_addg :
    let t := after (ready cfgS) 0x10020000 [3, 6, 0x00010005, 3]
    t.queue = [g63] ∧ t.gsnap = bits [1,1,0,0, 0,0,1,1] ∧ t.rsps = [[0, 0]] := by decide +kernel

/-- B-3: f0 is kept from GSNAP; B-5's ValueRange at index 1; and section 2.9, step 1: the debug pattern of an empty
field, reversed in the shift image. -/
theorem test_addg_merge :
    let s := { ready cfgS with queue := [g63], gsnap := bits [1,1,0,0, 0,0,1,1] }
    (after s 0x12010000 [0x00010005, 0x1F]).gsnap = bits [1,1,0,1, 1,1,1,1] ∧
      answer s 0x10010000 [0x00010005, 0x20] = some [0x00010004, 0x00010005] ∧
      (after (ready cfgB) 0x10000000 []).queue.head?.bind (·.pat.head?) =
        some (0, bits [0,0,0,0, 0,1,0,1, 0,1,0,0, 0,0]) := by decide +kernel

/-- B-11, and Q-3 placed at 1. -/
theorem test_addp :
    (after (ready cfgS) 0x20000000 [8, 0xA5]).queue = [pA5] ∧
      ((after (withQueue (ready cfgS) [i4, pA5]) 0x28000001 [8, 0x0F]).queue.map Block.kind =
        [.inject, .pixel, .pixel]) := by decide +kernel

/-- B-13 and B-14. -/
theorem test_addp_refusals :
    answer (withQueue (ready cfgS) [pA5]) 0x20000000 [8, 0x1A5] = some [0x00010004, 0x1A5] ∧
      answer (withQueue (ready cfgS) [pA5]) 0x20000000 [16, 0xA5] = some [0x00010003, 0x10] := by decide +kernel

/-- B-19, and B-17 with d = L_INJECT. -/
theorem test_addi :
    (after (ready cfgS) 0x30000000 [4]).queue = [i4] ∧
      (after (ready cfgS) 0x30000000 [16]).queue = [⟨.inject, 16, [(4, List.replicate 16 false)]⟩] := by decide +kernel

/-- B-18, and Q-4 and Q-6. -/
theorem test_addi_refusals :
    answer (withQueue (ready cfgS) [i4, pA5, pA5]) 0x30000000 [17] = some [0x00030402, 17] ∧
      answer (withQueue (ready cfgS) [i4, pA5, pA5]) 0x28000004 [8, 0x0F] = some [0x0003FF06, 4] ∧
      answer (withQueue (ready cfgS) [i4, pA5, pA5, g63]) 0x30000000 [1] = some [0x0004FF07, 4] := by decide +kernel

/-- C-3: total 98, G at [0, 10), P at [50, 58), INJECTION high over [0, 98). -/
theorem test_compile :
    let t := after (withQueue (ready cfgS) [g63, pA5]) 0x40000000 []
    t.rsps = [[0, 0x62]] ∧ t.compiled = true ∧ t.tracks.read 0 50 8 = bits [1,0,1,0, 0,1,0,1] ∧
      t.tracks.read 4 0 99 = List.replicate 98 true ++ [false] := by decide +kernel

/-- C-4: lead 16; INJECTION low over [16, 20) only; and C-8's StreamOverflow. -/
theorem test_compile_inject_first :
    (after (withQueue (ready cfgS) [i4]) 0x40000000 []).tracks.read 4 0 73 =
        List.replicate 16 true ++ List.replicate 4 false ++ List.replicate 52 true ++ [false] ∧
      answer (withQueue (ready { cfgS with trackLen := 97 }) [g63, pA5]) 0x40000000 [] =
        some [0x0002FF0A, 0x62] := by decide +kernel

/-- R-4: INJECTION 0, SHIFT_IN keeps the Global block's bits. -/
theorem test_reset :
    let t := after (compiledState (withQueue (ready cfgS) [g63, pA5])) 0x58000000 [0x10]
    t.rsps = [[0]] ∧ t.queue = [] ∧ t.lenreg = 0 ∧ t.compiled = false ∧
      t.tracks.read 4 0 512 = List.replicate 512 false ∧ t.tracks.read 0 0 10 = bits [0,1,1,1, 1,0,0,0, 0,0] := by
  decide +kernel

/-- R-2 and R-5. -/
theorem test_reset_refusals :
    answer (ready cfgS) 0x58000000 [0x20] = some [0x0000FF08, 0x20] ∧
      answer (playing (withQueue (ready cfgS) [pA5]) 1 (.running 0)) 0x50000000 [] = some [0x0001FF12, 5] := by
  decide +kernel

/-- P1 step 6: the vectors handed over (R52), here those of the Pixel block's range and before it. -/
theorem test_exec :
    let s := answering (compiledState (withQueue (ready cfgS) [g63, pA5])) [.ok, .ok, .ok]
    let t := after { s with env := { s.env with polls := [2] } } 0x60000001 []
    t.rsps = [[0]] ∧ t.busy = true ∧ t.xport.phase = .running 2 ∧ t.xport.stream.length = 98 ∧
      (t.xport.stream.drop 8).take 3 = [bits [0,0,0,0,1], bits [0,0,1,0,1], bits [0,0,0,0,1]] ∧
      t.xport.stream.getD 50 [] = bits [1,1,0,0,1] := by decide +kernel

/-- The transport failure vectors of section 2.6, and X-1. -/
theorem test_exec_refusals :
    let s := compiledState (withQueue (ready cfgS) [pA5])
    answer (answering s [.ok, .fail]) 0x60000001 [] = some [0x0002FF22, 1] ∧
      answer (ready cfgS) 0x60000001 [] = some [0x0000FF13, 0] := by decide +kernel

/-- P1 step 7: false, false, true; the FIFO receives two words. -/
theorem test_wait :
    let s := answering (playing (compiledState (withQueue (ready cfgS) [g63, pA5])) 1 (.running 2)) [.ok, .ok, .ok]
    let t := after { s with env := { s.env with captures := [[0xFF00], [], [0xABCD1234]] } } 0x70000000 [100]
    t.rsps = [[0, 3]] ∧ t.busy = false ∧ t.fifo = [0xFF00, 0xABCD1234] := by decide +kernel

/-- X-14's TimedOut, X-2, X-3, and the failed second poll of section 2.6. -/
theorem test_wait_refusals :
    let s := { playing (compiledState (withQueue (ready cfgS) [pA5])) 1 (.running 2) with
      env := ⟨[.ok, .ok], [], [[], []], 0⟩ }
    answer s 0x70000000 [2] = some [0x0000FF20, 2] ∧ answer (ready cfgS) 0x70000000 [1] = some [0, 0] ∧
      answer (ready cfgS) 0x70000000 [0] = some [0x0000FF0B, 0] ∧
      answer (answering s [.ok, .fail]) 0x70000000 [5] = some [0x0004FF22, 2] := by decide +kernel

/-- DEC-1 and DEC-5; and R151 and R192: where a failed EXEC left the transport playing, the word that arrives before the
count is decoded and the one that arrives before the read is not. -/
theorem test_decode :
    let s := answering (ready cfgS) [.ok, .ok]
    let l := answering (leftPlaying { ready cfgS with fifo := [1] } [[2], [3]]) [.ok, .ok]
    answer { s with fifo := [0xFF00, 0xABCD1234] } 0x80000000 [] = some [0, 0x20, 0xFF001234] ∧
      answer { s with fifo := [0x1111, 0x2222, 0x3333] } 0x80000000 [] = some [0, 0x30, 0x11112222, 0x33330000] ∧
      answer l 0x80000000 [] = some [0, 0x20, 0x00010002] ∧ (after l 0x80000000 []).fifo = [1, 2, 3] := by
  decide +kernel

/-- DEC-4: the pad is not inverted; DEC-13: a short read; DEC-9: a read buffer. -/
theorem test_decode_inverted_and_refusals :
    answer { answering (ready cfgS) [.ok, .ok] with fifo := [0x00018001] } 0x80000001 [] = some [0, 0x10, 0x7FFE0000] ∧
      answer { answering (ready cfgS) [.ok, .short 1] with fifo := [1, 2] } 0x80000000 [] =
        some [0x0002FF21, 2] ∧
      answer { ready cfgS with consumed := true } 0x80000000 [] = some [0x0000FF11, 0] := by decide +kernel

/-- DEC-11. -/
theorem test_rstout :
    let t := after { answering (ready cfgS) [.ok] with fifo := [1, 2], consumed := true } 0x90000000 []
    t.rsps = [[0]] ∧ t.fifo = [] ∧ t.consumed = false := by decide +kernel

/-- DEC-14. -/
theorem test_rstout_refusal :
    let t := after { answering (ready cfgS) [.fail] with consumed := true } 0x90000000 []
    t.rsps = [[0x0003FF21, 0]] ∧ t.consumed = true := by decide +kernel

/-- X-12 and QY-1. -/
theorem test_status :
    let s := compiledState (withQueue (ready cfgS) [pA5])
    answer { playing s 1 (.running 1) with consumed := true } 0xA0000000 [] = some [0, 0x00010007, 0x30] ∧
      answer { ready cfgS with consumed := true } 0xA0000000 [] = some [0, 4, 0] := by decide +kernel

/-- QY-8 and QY-4. -/
theorem test_rdtrk :
    answer (compiledState (withQueue (ready cfgS) [g63, pA5])) 0xB0020000 [0, 0x20] = some [0, 0x00400000] ∧
      answer (ready cfgS) 0xB0000000 [0x1F4, 0xC] = some [0, 0] := by decide +kernel

/-- QY-2, QY-3 and QY-6. -/
theorem test_rdtrk_refusals :
    answer (ready cfgS) 0xB0050000 [0, 1] = some [0x00000508, 5] ∧
      answer (ready cfgS) 0xB0000000 [0x1F4, 0xD] = some [0x00000009, 0x1F4] ∧
      answer (ready cfgS) 0xB0000000 [0xFFFFFFFF, 2] = some [0x00000009, 0xFFFFFFFF] := by decide +kernel

/-- The lines of section 0 assemble to the packets beside them. -/
theorem test_assemble :
    (assemble cfgS (.addg false false none [⟨0, none, 6⟩, ⟨1, none, 3⟩])).map encode =
        some ⟨0x10020000, [0x00000003, 0x00000006, 0x00010005, 0x00000003]⟩ ∧
      (assemble cfgS (.addp none (.digits (bits [1,0,1,0, 0,1,0,1]) none))).map encode =
        some ⟨0x20000000, [8, 0xA5]⟩ ∧
      (assemble cfgS (SourceCall.expand (.reset (some 0x10)))).map encode = some ⟨0x58000000, [0x10]⟩ := by
  decide +kernel

/-! ### Witnesses: inputs that meet the hypotheses of the statements

The states are CFG_S's: an empty queue, the queue [I(4), P(A5)], that queue compiled (total 120), and that stream
playing. -/

def sEmpty : State := ready cfgS
def sQueue : State := withQueue (ready cfgS) [i4, pA5]
def sCompiled : State := compiledState sQueue
def sPlaying (ph : Phase) (rep : BitVec 16) : State := playing sCompiled rep ph

theorem test_inv_empty : Inv sEmpty :=
  ⟨by decide +kernel, by decide +kernel, by decide +kernel, by decide +kernel, by decide +kernel, by decide +kernel,
    nofun, nofun, nofun⟩

theorem test_inv_queue : Inv sQueue :=
  ⟨by decide +kernel, by decide +kernel, by decide +kernel, by decide +kernel, by decide +kernel, by decide +kernel,
    nofun, nofun, nofun⟩

theorem test_inv_compiled : Inv sCompiled :=
  ⟨by decide +kernel, by decide +kernel, by decide +kernel, by decide +kernel, by decide +kernel, by decide +kernel,
    by decide +kernel, nofun, nofun⟩

theorem test_inv_playing : Inv (sPlaying (.running 2) 1) ∧ Inv (sPlaying .endless 0) :=
  ⟨⟨by decide +kernel, by decide +kernel, by decide +kernel, by decide +kernel, by decide +kernel, by decide +kernel,
      by decide +kernel, by decide +kernel, fun _ => rfl⟩,
    ⟨by decide +kernel, by decide +kernel, by decide +kernel, by decide +kernel, by decide +kernel, by decide +kernel,
      by decide +kernel, by decide +kernel, fun _ => rfl⟩⟩

/-- EncodedCommandDecodesBack, DecodedPacketEncodesBack: an ADDG with every field at its largest but its records. -/
theorem test_witness_encoding :
    (Instr.addg (some 0xFFFF) true true [⟨0xFFFF, 33, [1, 0xFFFFFFFF]⟩]).wf = true ∧
      decode ⟨0x1E01FFFF, [0xFFFF0021, 1, 0xFFFFFFFF]⟩ =
        .ok (.addg (some 0xFFFF) true true [⟨0xFFFF, 33, [1, 0xFFFFFFFF]⟩]) := by decide +kernel

/-- IllegalPacketRaisesIllegalCommand: each of the five reasons, and a state with such a packet waiting. -/
theorem test_witness_illegal :
    packetIllegal ⟨0x00000000, []⟩ ∧ packetIllegal ⟨0xC0000000, []⟩ ∧ packetIllegal ⟨0x20010000, [0]⟩ ∧
      packetIllegal ⟨0xB0008000, [0, 0]⟩ ∧ packetIllegal ⟨0x10000001, []⟩ ∧ packetIllegal ⟨0x40000000, [0]⟩ ∧
      ({ sEmpty with cmds := [⟨0, []⟩] } : State).cmds = ⟨0, []⟩ :: [] ∧ sEmpty.cfg.wf = true :=
  ⟨.inl (by decide), .inr (.inl (by decide)), .inr (.inr (.inl ⟨16, by decide, by decide⟩)),
    .inr (.inr (.inl ⟨15, by decide, by decide⟩)), .inr (.inr (.inr (.inl (by decide)))),
    .inr (.inr (.inr (.inr (by decide)))), rfl, by decide +kernel⟩

/-- StepRunsTheDecodedCommand, EveryPacketGetsOneResponse. -/
theorem test_witness_step :
    let s : State := { sQueue with cmds := [⟨0x40000000, []⟩] }
    s.cfg.wf = true ∧ s.cmds = ⟨0x40000000, []⟩ :: [] ∧ decode ⟨0x40000000, []⟩ = .ok .compile := by decide +kernel

theorem test_witness_step_inv : Inv { sQueue with cmds := [⟨0x40000000, []⟩] } :=
  ⟨by decide +kernel, by decide +kernel, by decide +kernel, by decide +kernel, by decide +kernel, by decide +kernel,
    nofun, nofun, nofun⟩

/-- StepWithoutACommand: a configuration of no tracks, and an empty port. -/
theorem test_witness_idle :
    ({ cfgS with ntracks := 0 } : Config).wf = false ∧ sEmpty.cfg.wf = true ∧ sEmpty.cmds = [] := by decide +kernel

/-- ErrorLeavesTheStateUnchanged: COMPILE of an empty queue. -/
theorem test_witness_error :
    exec .compile sEmpty = .next (compile sEmpty) ∧
      (compile sEmpty).rsps = sEmpty.rsps ++ [Err.words ⟨.emptyQueue, 0, noTrack, 0⟩] := ⟨rfl, by decide +kernel⟩

/-- OnlyNamedCommandsWriteEachElement: each element does change. -/
theorem test_witness_writes :
    (addg none false false [⟨0, 3, [6]⟩] sEmpty).gsnap ≠ sEmpty.gsnap ∧
      (addp none 8 [0xA5] sCompiled).queue ≠ sCompiled.queue ∧ (addp none 8 [0xA5] sCompiled).compiled = false ∧
      (compile sQueue).tracks ≠ sQueue.tracks ∧ (compile sQueue).lenreg ≠ sQueue.lenreg ∧
      (compile sQueue).compiled = true ∧
      (execStream 1 (answering sCompiled [.ok, .ok, .ok])).busy = true ∧
      (wait 1 { answering (sPlaying (.running 0) 1) [.ok] with env := ⟨[.ok], [], [[7]], 0⟩ }).busy = false ∧
      (wait 1 { answering (sPlaying (.running 0) 1) [.ok] with env := ⟨[.ok], [], [[7]], 0⟩ }).fifo = [7] ∧
      (decodeFifo false (answering sEmpty [.ok, .ok])).consumed = true ∧
      (rstout { answering sEmpty [.ok] with consumed := true }).consumed = false := by decide +kernel

/-- BusyRefusesEightCommands: RESET while the transport plays, and STATUS, which answers. -/
theorem test_witness_busy :
    (sPlaying (.running 2) 1).busy = true ∧ busyRefuses (.reset none) = true ∧ busyRefuses .status = false ∧
      exec .status sEmpty = .next (status sEmpty) := ⟨by decide +kernel, by decide, by decide, rfl⟩

/-- BuilderPlacementErrors: one position past the end, and a full queue with and without a position. -/
theorem test_witness_placement :
    let full : State := withQueue sEmpty [i4, pA5, pA5, g63]
    sQueue.busy = false ∧ sQueue.queue.length < (3 : BitVec 16).toNat ∧
      full.busy = false ∧ placeIndex none full ≤ full.queue.length ∧ placeIndex (some 4) full ≤ full.queue.length ∧
      full.queue.length = full.cfg.qmax ∧ full.cfg.qmax < 2 ^ 32 := by decide +kernel

/-- AddgBuildsTheGlobalBlock: a record for each field, the later one for f0 again; placed at the end of the queue. -/
theorem test_witness_addg :
    builderAdmits (some 2) sQueue = true ∧ builderAdmits none sQueue = true ∧
      [(⟨0, 3, [7]⟩ : FieldRecord), ⟨1, 5, [31]⟩, ⟨0, 3, [0]⟩].all (recordOk sQueue.cfg) = true := by decide +kernel

/-- AddgRefusesTheFirstBadRecord: an unknown field, a wrong length and a value that just does not fit. -/
theorem test_witness_addg_refusal :
    builderAdmits none sQueue = true ∧ [(⟨0, 3, [7]⟩ : FieldRecord)].all (recordOk sQueue.cfg) = true ∧
      recordOk sQueue.cfg ⟨2, 1, [1]⟩ = false ∧ recordOk sQueue.cfg ⟨1, 6, [3]⟩ = false ∧
      recordOk sQueue.cfg ⟨1, 5, [32]⟩ = false := by decide +kernel

/-- AddpBuildsThePixelBlock, AddpRefusesABadPattern: the largest pattern, one bit too long, one too large. -/
theorem test_witness_addp :
    builderAdmits none sQueue = true ∧ (8 : Word).toNat = sQueue.cfg.pixelWidth ∧
      beInt [255] < 2 ^ sQueue.cfg.pixelWidth ∧ (9 : Word).toNat ≠ sQueue.cfg.pixelWidth ∧
      2 ^ sQueue.cfg.pixelWidth ≤ beInt [256] := by decide +kernel

/-- AddiBuildsTheInjectBlock, AddiRefusesALongDelay: L_INJECT itself, and one more. -/
theorem test_witness_addi :
    builderAdmits (some 0) sQueue = true ∧ (16 : Word).toNat ≤ sQueue.cfg.lInject ∧
      sQueue.cfg.lInject < (17 : Word).toNat := by decide +kernel

/-- BaseImageOfTheFields, ShiftImageReversesEachField: CFG_B, whose field f1 is empty. -/
theorem test_witness_image :
    cfgB.wf = true ∧ (⟨"f1", 4, 6, true⟩ : Field) ∈ cfgB.gfields ∧ (baseImage cfgB).length = cfgB.globalWidth ∧
      (∀ j < 3, (bits [1,1,0,0, 0,0,1,1]).getD (0 + j) false = (6 : Nat).testBit (3 - 1 - j)) ∧
      (⟨"f0", 0, 3, false⟩ : Field) ∈ cfgS.gfields := by decide +kernel

/-- CompileLaysOutTheQueue, RecompileRepeatsTheStream: also with a total that fills the track exactly. -/
theorem test_witness_compile :
    sQueue.busy = false ∧ sQueue.queue ≠ [] ∧ totalOf sQueue.cfg sQueue.queue ≤ sQueue.cfg.trackLen ∧
      totalOf { cfgS with trackLen := 120 } [i4, pA5] = ({ cfgS with trackLen := 120 } : Config).trackLen ∧
      exec .compile sQueue = .next (compile sQueue) :=
  ⟨rfl, by decide +kernel, by decide +kernel, by decide +kernel, rfl⟩

/-- BlocksNeverOverlap: two blocks, the first after its lead-in. -/
theorem test_witness_blocks :
    let placed := placeBlocks (leadIn cfgS [i4, pA5]) [i4, pA5]
    placed[0]? = some (16, i4) ∧ placed[1]? = some (72, pA5) ∧ streamLength cfgS [i4, pA5] = 120 := by decide +kernel

/-- CompileRefusals: an empty queue, and a total one above the track length. -/
theorem test_witness_compile_refusals :
    sEmpty.busy = false ∧ sEmpty.queue = [] ∧ sQueue.queue ≠ [] ∧
      ({ cfgS with trackLen := 119 } : Config).trackLen < totalOf { cfgS with trackLen := 119 } sQueue.queue := by
  decide +kernel

/-- ResetClearsTheSelectedTracks with every legal mask bit, ResetRefusesABadMask with the first bit that is not. -/
theorem test_witness_reset :
    sCompiled.busy = false ∧ (∀ k < 32, (0x1F : Word).getLsbD k = true → k < sCompiled.cfg.ntracks) ∧
      sCompiled.cfg.ntracks ≤ 5 ∧ (0x20 : Word).getLsbD 5 = true := by decide +kernel

/-- ExecHandsTheStreamOver, ExecRefusals: three good answers, and a failure at each call. -/
theorem test_witness_exec :
    let a := answering sCompiled [.ok, .ok, .ok]
    let b := answering sCompiled [.fail]
    let c := answering sCompiled [.ok, .fail]
    let d := answering sCompiled [.ok, .ok, .fail]
    a.busy = false ∧ a.compiled = true ∧ answerFailed a.portCall.1 = false ∧ answerFailed a.portCall.2.portCall.1 = false ∧
      answerFailed a.portCall.2.portCall.2.portCall.1 = false ∧ sQueue.compiled = false ∧ answerFailed b.portCall.1 = true ∧
      answerFailed c.portCall.1 = false ∧ answerFailed c.portCall.2.portCall.1 = true ∧
      answerFailed d.portCall.2.portCall.1 = false ∧ answerFailed d.portCall.2.portCall.2.portCall.1 = true := by decide +kernel

theorem test_witness_exec_inv : Inv (answering sCompiled [.ok, .ok, .ok]) :=
  ⟨by decide +kernel, by decide +kernel, by decide +kernel, by decide +kernel, by decide +kernel, by decide +kernel,
    by decide +kernel, nofun, nofun⟩

/-- WaitWithoutAPoll: nothing running. -/
theorem test_witness_wait_idle : (1 : Word) ≠ 0 ∧ sEmpty.busy = false := by decide +kernel

/-- WaitSeesTheExecutionFinish at the last poll that NPOLL allows, and WaitTimesOut one poll short of it. -/
theorem test_witness_wait :
    let s := { sPlaying (.running 2) 1 with env := ⟨[.ok, .ok, .ok], [], [[], [], []], 0⟩ }
    s.busy = true ∧ s.xport.phase = .running 2 ∧ 2 < (3 : Word).toNat ∧
      (∀ i ≤ 2, answerFailed (afterPolls i s).portCall.1 = false) ∧
      (2 : Word) ≠ 0 ∧ (∀ i < (2 : Word).toNat, answerFailed (afterPolls i s).portCall.1 = false) ∧
      (2 : Word).toNat ≤ 2 := by decide +kernel

/-- WaitTimesOut on an endless execution, EndlessExecutionKeepsBusy, RunningStreamIsNotChanged. -/
theorem test_witness_endless :
    let s := { sPlaying .endless 0 with env := ⟨[.ok, .ok], [], [[], []], 0⟩ }
    s.busy = true ∧ s.xport.phase = .endless ∧
      (∀ i < (2 : Word).toNat, answerFailed (afterPolls i s).portCall.1 = false) ∧
      step s = .next s := ⟨rfl, rfl, by decide +kernel, rfl⟩

/-- WaitReportsAFailedPoll: the second poll of a running execution, and the first of an endless one. -/
theorem test_witness_wait_failed :
    let s := { sPlaying (.running 1) 1 with env := ⟨[.ok, .fail], [], [[], []], 0⟩ }
    let e := { sPlaying .endless 0 with env := ⟨[.fail], [], [[]], 0⟩ }
    s.busy = true ∧ 1 < (2 : Word).toNat ∧ s.xport.phase = .running 1 ∧ (1 : Nat) ≤ 1 ∧
      (∀ j < 1, answerFailed (afterPolls j s).portCall.1 = false) ∧
      ¬ answerFailed (afterPolls 1 s).portCall.1 = false ∧
      e.xport.phase = .endless ∧ ¬ answerFailed (afterPolls 0 e).portCall.1 = false := by decide +kernel

/-- DecodeAnswersTheFifoBits, DecodeResponseWords: three words, an odd number, all read, with the FIFO quiet; and a
transport left playing, from which a word arrives before the count and another before the read. -/
theorem test_witness_decode :
    let s := { answering sEmpty [.ok, .ok] with fifo := [0x1111, 0x2222, 0x3333] }
    let l := answering (leftPlaying sCompiled [[7], [8]]) [.ok, .ok]
    s.busy = false ∧ s.consumed = false ∧ s.fifoQuiet = true ∧ answerFailed s.portCall.1 = false ∧
      answerWords s.portCall.2.portCall.2.fifo s.portCall.2.portCall.1 = some s.portCall.2.fifo ∧
      s.portCall.2.fifo = [0x1111, 0x2222, 0x3333] ∧
      l.busy = false ∧ l.consumed = false ∧ l.fifoQuiet = false ∧ answerFailed l.portCall.1 = false ∧
      answerWords l.portCall.2.portCall.2.fifo l.portCall.2.portCall.1 = some [7, 8] ∧
      l.portCall.2.fifo = [7] := by decide +kernel

/-- DecodeRefusals: a read buffer, a failed count, a failed read and a read one word short. -/
theorem test_witness_decode_refusals :
    let s := { answering sEmpty [.fail] with fifo := [1, 2] }
    let r := { answering sEmpty [.ok, .fail] with fifo := [1, 2] }
    let t := { answering sEmpty [.ok, .short 1] with fifo := [1, 2] }
    ({ sEmpty with consumed := true } : State).busy = false ∧ s.consumed = false ∧ answerFailed s.portCall.1 = true ∧
      s.fifoQuiet = true ∧ answerFailed r.portCall.1 = false ∧
      answerWords r.portCall.2.portCall.2.fifo r.portCall.2.portCall.1 = none ∧
      answerFailed t.portCall.1 = false ∧ answerWords t.portCall.2.portCall.2.fifo t.portCall.2.portCall.1 = some [1] ∧
      t.portCall.2.fifo = [1, 2] := by
  decide +kernel

/-- RstoutEmptiesTheFifo, both ways. -/
theorem test_witness_rstout :
    sEmpty.busy = false ∧ answerFailed (answering sEmpty [.ok]).portCall.1 = false ∧
      answerFailed (answering sEmpty [.fail]).portCall.1 = true := by decide +kernel

/-- FifoStaysEmptyUntilExec: RSTOUT while a transport left playing has words to come, then COMPILE and DECODE; and each
of the two ways in which the FIFO is quiet. -/
theorem test_witness_fifo :
    let l := answering (leftPlaying sCompiled [[7], [8], [9]]) [.ok, .ok, .ok]
    let t := rstout l
    l.busy = false ∧ answerFailed l.portCall.1 = false ∧ exec .rstout l = .next t ∧
      runCommands [.compile, .decode false] t = .next (decodeFifo false (compile t)) ∧
      t.fifo = [] ∧ t.fifoQuiet = true ∧ phasePlaying t.xport.phase = true ∧
      State.reset.drained = false ∧ State.reset.fifoQuiet = true ∧ exec .compile t = .next (compile t) :=
  ⟨rfl, by decide +kernel, rfl, rfl, by decide +kernel, by decide +kernel, by decide +kernel, rfl, rfl, rfl⟩

theorem test_witness_fifo_commands (rep : BitVec 16) : ∀ i ∈ [Instr.compile, .decode false], i ≠ .exec rep := by simp

/-- PlayingTransportFillsTheFifo: words to come with BUSY 1 and after a failed EXEC, an idle transport, and an RSTOUT. -/
theorem test_witness_fill :
    let s := { sPlaying .endless 0 with env := ⟨[], [], [[7]], 0⟩ }
    let l := leftPlaying sCompiled [[7]]
    phasePlaying s.xport.phase = true ∧ s.drained = false ∧ s.env.captures = [[7]] ∧
      phasePlaying l.xport.phase = true ∧ l.drained = false ∧ l.busy = false ∧ l.env.captures = [[7]] ∧
      phasePlaying sCompiled.xport.phase = false ∧ (rstout (answering l [.ok])).drained = true := by decide +kernel

/-- StatusAnswersFlagsAndLength: a queue length that fits. -/
theorem test_witness_status : sQueue.queue.length < 2 ^ 16 := by decide +kernel

/-- RdtrkAnswersTheRange to the very end of the last track, RdtrkRefusals one track and one bit further. -/
theorem test_witness_rdtrk :
    sEmpty.tracks.wf sEmpty.cfg = true ∧ (4 : BitVec 5).toNat < sEmpty.cfg.ntracks ∧
      (500 : Word).toNat + (12 : Word).toNat ≤ sEmpty.cfg.trackLen ∧ sEmpty.cfg.ntracks ≤ (5 : BitVec 5).toNat ∧
      sEmpty.cfg.trackLen < (500 : Word).toNat + (13 : Word).toNat := by decide +kernel

/-- StepKeepsTheInvariant: the states above meet it, and the step of one of them is a next state. -/
theorem test_witness_invariant :
    step { sQueue with cmds := [⟨0x40000000, []⟩] } = .next (compile sQueue) := rfl

/-- PowerOnMeetsTheInvariant, WorkedEncodingOfAddg. -/
theorem test_witness_config :
    cfgB.wf = true ∧ cfgS.gfields = [⟨"f0", 0, 3, false⟩, ⟨"f1", 3, 5, false⟩] := by decide +kernel

/-- ValueCarriageReadsBack: the largest value of 33 bits. -/
theorem test_witness_carriage : (2 ^ 33 - 1 : Nat) < 2 ^ 33 := by decide

/-- AssembledLineIsWellFormed: a field without a length. -/
theorem test_witness_assemble :
    assemble cfgS (.addg false false none [⟨1, none, 31⟩]) = some (.addg none false false [⟨1, 5, [31]⟩]) ∧
      cfgS.wf = true ∧ cfgS.gfields[(1 : BitVec 16).toNat]? = some ⟨"f1", 3, 5, false⟩ ∧ (31 : Nat) < 2 ^ 5 := by
  decide +kernel

end Sys2Proof.Tests
end

/-! PROOFS. The family of spec 00_scope.md: the carriage of values (R9, R75), the configuration's check in the step
(R5), and the base case of the invariant (R210, R211). -/

namespace Sys2Proof.Machine

/-! ### Values in vectors and words -/

/-- The last element of `msb_vec` is the least significant bit, and the elements before it carry the other bits. -/
theorem msbVec_succ (k x : Nat) : msbVec (k + 1) x = msbVec k (x / 2) ++ [x.testBit 0] := by
  have hbits : ∀ j ∈ List.range k, x.testBit (k - j) = (x / 2).testBit (k - 1 - j) := fun j hj => by
    rw [← Nat.testBit_succ, show (k - 1 - j).succ = k - j by have := List.mem_range.1 hj; omega]
  simpa [msbVec, List.range_succ] using hbits

/-- `vec_int` after `msb_vec_k` keeps the low `k` bits (R9). -/
theorem vecInt_msbVec (k x : Nat) : vecInt (msbVec k x) = x % 2 ^ k := by
  induction k generalizing x with
  | zero => simp [msbVec, vecInt, Nat.mod_one]
  | succ k ih =>
    rw [msbVec_succ, vecInt_append, ih, Nat.toNat_testBit, pow_succ', Nat.mod_mul]
    simp [Nat.add_comm]

theorem beInt_append (ws : List Word) (w : Word) : beInt (ws ++ [w]) = beInt ws * 2 ^ 32 + w.toNat := by
  simp [beInt]

/-- The last of the words that carry `x` holds its low 32 bits, and the words before it carry the rest (R75). -/
theorem beWords_succ (m x : Nat) : beWords (m + 1) x = beWords m (x / 2 ^ 32) ++ [BitVec.ofNat 32 x] := by
  have hwords : ∀ i ∈ List.range m, x / 2 ^ (32 * (m - i)) = x / 2 ^ 32 / 2 ^ (32 * (m - 1 - i)) := fun i hi => by
    rw [Nat.div_div_eq_div_mul, ← pow_add,
      show 32 + 32 * (m - 1 - i) = 32 * (m - i) by have := List.mem_range.1 hi; omega]
  rw [beWords, beWords, List.range_succ, List.map_append]
  congr 1
  · exact List.map_congr_left fun i hi => congrArg _ (hwords i hi)
  · simp

/-- `be_int` of the `m` words that carry `x` keeps its low `32 m` bits (R9, R75). -/
theorem beInt_beWords (m x : Nat) : beInt (beWords m x) = x % 2 ^ (32 * m) := by
  induction m generalizing x with
  | zero => simp [beWords, beInt, Nat.mod_one]
  | succ m ih =>
    rw [beWords_succ, beInt_append, ih, BitVec.toNat_ofNat, show 32 * (m + 1) = 32 + 32 * m by omega, pow_add,
      Nat.mod_mul, Nat.mul_comm, Nat.add_comm]

/-- `ceil32(k)` words have room for `k` bits (R9). -/
theorem le_mul_ceil32 (k : Nat) : k ≤ 32 * ceil32 k := by
  unfold ceil32; omega

/-- Settles O47: both carriages keep the low bits, and `x` has no others. -/
theorem valueCarriageReadsBack : Obligations.ValueCarriageReadsBack := by
  intro k x hx
  have hroom : x < 2 ^ (32 * ceil32 k) := hx.trans_le (Nat.pow_le_pow_right (by decide) (le_mul_ceil32 k))
  exact ⟨by rw [vecInt_msbVec, Nat.mod_eq_of_lt hx], by rw [beInt_beWords, Nat.mod_eq_of_lt hroom]⟩

/-! ### The configuration and the step -/

/-- A step under a configuration that breaks a constraint is refused (R5, log 26). -/
theorem step_of_badConfiguration {s : State} (h : s.cfg.wf = false) : step s = .refused .badConfiguration := by
  simp [step, h]

/-- No packet can be taken from an empty command port. -/
theorem takePacket_of_empty {s : State} (h : s.cmds = []) : s.takePacket = none := by
  simp [State.takePacket, h]

/-- With no packet waiting the step answers the same state (log 5). -/
theorem step_of_noPacket {s : State} (hc : s.cfg.wf = true) (h : s.cmds = []) : step s = .next s := by
  simp [step, hc, takePacket_of_empty h]

/-- Settles O7: the step checks the configuration first, and then takes a packet. -/
theorem stepWithoutACommand : Obligations.StepWithoutACommand :=
  ⟨fun _ => step_of_badConfiguration, fun _ => step_of_noPacket⟩

/-! ### Power-on -/

/-- The configuration of the reset state meets R5 (log 2). -/
theorem Config.reference_wf : Config.reference.wf = true := by decide +kernel

/-- The power-on state has the shapes of R20 whatever its free track bits are, and makes no promise of COMPILED or BUSY,
for both are 0 (R210, R211). -/
theorem powerOn_inv {c : Config} (hc : c.wf = true) : Inv (State.powerOn c) where
  configured := hc
  tracksWf := powerOnTracks_wf c
  queueFits := Nat.zero_le _
  blocksWf := nofun
  gsnapLen := baseImage_length c
  lenregFits := Nat.zero_le _
  compiledTracks := nofun
  busyTransport := nofun
  busyTakesWords := nofun

/-- Settles O46: the reset state is the power-on state of a legal configuration. -/
theorem powerOnMeetsTheInvariant : Obligations.PowerOnMeetsTheInvariant :=
  ⟨fun _ => powerOn_inv, powerOn_inv Config.reference_wf⟩

end Sys2Proof.Machine

/-! PROOFS. The family of spec 10_state.md: every step keeps the invariant (R20 to R26, R40), the write set of each
command (R21 to R27), the status word (R28), the taking of a packet (R30) and the power-on state (R20, R210). -/

namespace Sys2Proof.Machine

/-! ### The invariant and the outside agents -/

/-- What BUSY promises of a transport `x` and of `drained` in the state `s`: `x` plays its copy of the compiled stream,
for ever exactly when its repeat count is 0, and the FIFO takes words (R25, R52, R194, R197). -/
structure StreamPlays (s : State) (x : Transport) (drained : Bool) : Prop where
  compiled : s.compiled = true
  stream : x.stream = s.tracks.vectors s.lenreg.toNat
  totalLength : x.totalLength = s.lenreg
  playing : phasePlaying x.phase = true
  forever : x.phase = .endless ↔ x.repeatCount = 0
  takesWords : drained = false

theorem Inv.streamPlays {s : State} (h : Inv s) (hb : s.busy = true) : StreamPlays s s.xport s.drained := by
  obtain ⟨hc, hs, hl, hp, hf⟩ := h.busyTransport hb
  exact ⟨hc, hs, hl, hp, hf, h.busyTakesWords hb⟩

/-- A transport that still plays, as long as it played before, keeps BUSY's promise (R194). -/
theorem StreamPlays.with_phase {s : State} {x : Transport} {d : Bool} (h : StreamPlays s x d) {ph : Phase}
    (hp : phasePlaying ph = true) (hf : ph = .endless ↔ x.phase = .endless) :
    StreamPlays s { x with phase := ph } d :=
  { h with playing := hp, forever := hf.trans h.forever }

/-- Outside the queue, the image, the tracks, LENREG and COMPILED, the invariant asks only BUSY's promise. -/
theorem Inv.with_agents {s : State} (h : Inv s) {busy consumed drained : Bool} {x : Transport} {fifo : List Word}
    {env : Env} {cmds : List Packet} {rsps : List Response} (hb : busy = true → StreamPlays s x drained) :
    Inv { s with busy, consumed, drained, xport := x, fifo, env, cmds, rsps } where
  configured := h.configured
  tracksWf := h.tracksWf
  queueFits := h.queueFits
  blocksWf := h.blocksWf
  gsnapLen := h.gsnapLen
  lenregFits := h.lenregFits
  compiledTracks := h.compiledTracks
  busyTransport e :=
    have p := hb e
    ⟨p.compiled, p.stream, p.totalLength, p.playing, p.forever⟩
  busyTakesWords e := (hb e).takesWords

theorem Inv.respond {s : State} (h : Inv s) (r : Response) : Inv (s.respond r) := h.with_agents h.streamPlays

theorem Inv.succeed {s : State} (h : Inv s) (ws : List Word) : Inv (s.succeed ws) := h.respond _

theorem Inv.raise {s : State} (h : Inv s) (e : Err) : Inv (s.raise e) := h.respond _

/-! ### The invariant and the builders -/

theorem pixelPattern_length {c : Config} {idx : Nat} {len : Word} {ws : List Word} {b : Bits}
    (h : pixelPattern c idx len ws = .ok b) : b.length = c.pixelWidth := by
  unfold pixelPattern at h
  split at h
  · cases h
  · rename_i hl
    split at h
    · cases h
    · cases h
      rw [msbVec_length]; omega

theorem globalBlock_wf (c : Config) (img : Bits) (ld : Bool) : (globalBlock c img ld).wf c = true := by
  rw [Block.wf_iff]; simp [globalBlock, kindLen, kindTracks, shiftIn, shiftEn, ctrlLoad, dacLoad]

theorem pixelBlock_wf {c : Config} {b : Bits} (h : b.length = c.pixelWidth) : (pixelBlock c b).wf c = true := by
  rw [Block.wf_iff]; simp [pixelBlock, kindLen, kindTracks, shiftIn, shiftEn, h]

theorem injectBlock_wf {c : Config} {d : Nat} (h : d ≤ c.lInject) : (injectBlock c d).wf c = true := by
  rw [Block.wf_iff]; simp [injectBlock, kindLen, kindTracks, injection, h]

theorem placeAt_length {q : List Block} {idx : Nat} (h : idx ≤ q.length) (b : Block) :
    (placeAt q idx b).length = q.length + 1 := by
  simp [placeAt]; omega

theorem mem_placeAt {q : List Block} {idx : Nat} {a b : Block} (h : a ∈ placeAt q idx b) : a = b ∨ a ∈ q := by
  simp only [placeAt, List.mem_append, List.mem_singleton] at h
  rcases h with (h | h) | h
  · exact .inr (List.mem_of_mem_take h)
  · exact .inl h
  · exact .inr (List.mem_of_mem_drop h)

/-- Placing a well-formed block where the preamble admits it keeps the invariant (R90, R91). -/
theorem Inv.place {s : State} (h : Inv s) {op : Word} {pl : Placement} {idx : Nat}
    (hi : builderIndex op pl s = .ok idx) {b : Block} (hw : b.wf s.cfg = true) {img : Bits}
    (hl : img.length = s.cfg.globalWidth) : Inv { s.place idx b with gsnap := img } := by
  obtain ⟨hb, -, hidx, hroom⟩ := builderIndex_cases hi
  have hfits : s.queue.length + 1 ≤ s.cfg.qmax := by have := h.queueFits; omega
  exact
    { configured := h.configured
      tracksWf := h.tracksWf
      queueFits := (placeAt_length hidx b).trans_le hfits
      blocksWf := fun a ha => (mem_placeAt ha).elim (· ▸ hw) (h.blocksWf a)
      gsnapLen := hl
      lenregFits := h.lenregFits
      compiledTracks := nofun
      busyTransport := fun e => nomatch hb.symm.trans e
      busyTakesWords := fun e => nomatch hb.symm.trans e }

theorem addg_keeps_inv (pl : Placement) (ld mg : Bool) (rs : List FieldRecord) {s : State} (h : Inv s) :
    Inv (addg pl ld mg rs s) := by
  rcases addg_cases pl ld mg rs s with ⟨e, he⟩ | ⟨idx, img, hi, hr, he⟩ <;> rw [he]
  · exact h.raise e
  · have hbase : (if mg then s.gsnap else baseImage s.cfg).length = s.cfg.globalWidth := by
      split
      · exact h.gsnapLen
      · exact baseImage_length _
    exact (h.place hi (globalBlock_wf _ _ _) (applyRecords_length h.configured hbase hr)).succeed _

theorem addp_keeps_inv (pl : Placement) (len : Word) (ws : List Word) {s : State} (h : Inv s) :
    Inv (addp pl len ws s) := by
  rcases addp_cases pl len ws s with ⟨e, he⟩ | ⟨idx, b, hi, hp, he⟩ <;> rw [he]
  · exact h.raise e
  · exact (h.place hi (pixelBlock_wf (pixelPattern_length hp)) h.gsnapLen).succeed _

theorem addi_keeps_inv (pl : Placement) (d : Word) {s : State} (h : Inv s) : Inv (addi pl d s) := by
  rcases addi_cases pl d s with ⟨e, he⟩ | ⟨idx, hi, hd, he⟩ <;> rw [he]
  · exact h.raise e
  · exact (h.place hi (injectBlock_wf hd) h.gsnapLen).succeed _

/-! ### The invariant and the sequencing commands -/

/-- COMPILE keeps the invariant: a second compile of its queue would write the tracks it has written (R26, R127). -/
theorem compile_keeps_inv {s : State} (h : Inv s) : Inv (compile s) := by
  rcases compile_cases s with ⟨e, he⟩ | ⟨hb, hq, hfit, he⟩ <;> rw [he]
  · exact h.raise e
  · obtain ⟨h5, -, hlen, -⟩ := Config.bounds h.configured
    have htotal : totalOf s.cfg s.queue ≤ s.cfg.trackLen := by rwa [← streamLength_eq]
    have hreg : (BitVec.ofNat 32 (streamLength s.cfg s.queue)).toNat = streamLength s.cfg s.queue := by
      rw [BitVec.toNat_ofNat, Nat.mod_eq_of_lt (hfit.trans_lt hlen)]
    apply Inv.succeed
    exact
      { h with
        tracksWf := (compileTracks_bit h5 h.tracksWf h.blocksWf htotal).1
        lenregFits := hreg.trans_le hfit
        compiledTracks := fun _ => ⟨hq, hreg.symm, compileTracks_idem h5 h.tracksWf h.blocksWf htotal⟩
        busyTransport := fun e => nomatch hb.symm.trans e }

theorem reset_keeps_inv (mask : Option Word) {s : State} (h : Inv s) : Inv (reset mask s) := by
  rcases reset_cases mask s with ⟨e, he⟩ | ⟨hb, -, he⟩ <;> rw [he]
  · exact h.raise e
  · apply Inv.succeed
    exact
      { h with
        tracksWf := Memory.clear_wf h.tracksWf mask
        queueFits := Nat.zero_le _
        blocksWf := nofun
        lenregFits := Nat.zero_le _
        compiledTracks := nofun
        busyTransport := fun e => nomatch hb.symm.trans e }

/-- The hand-over of a compiled stream makes BUSY's promise true (R52, R130, R194). -/
theorem startTransport_streamPlays {s : State} (hc : s.compiled = true) (rep : BitVec 16) :
    StreamPlays s (s.startTransport rep).xport false := by
  obtain ⟨ph, hx, h0, h1⟩ := startTransport_xport s rep
  rw [hx]
  by_cases hr : rep = 0
  · cases h0 hr
    exact ⟨hc, rfl, rfl, rfl, iff_of_true rfl hr, rfl⟩
  · obtain ⟨n, rfl⟩ := h1 hr
    exact ⟨hc, rfl, rfl, rfl, iff_of_false nofun hr, rfl⟩

theorem execStream_keeps_inv (rep : BitVec 16) {s : State} (h : Inv s) : Inv (execStream rep s) := by
  rcases execStream_cases rep s with ⟨e, x, f, d, v, he, hbusy⟩ | ⟨-, hc, -, -, -, ws, v, -, he⟩ <;> rw [he]
  · refine Inv.raise (h.with_agents fun hb => ?_) e
    obtain ⟨rfl, -, rfl⟩ := hbusy hb
    exact h.streamPlays hb
  · obtain ⟨env, hs⟩ := startTransport_frame { s with fifo := s.fifo ++ ws, env := v } rep
    have hplays := startTransport_streamPlays (s := { s with fifo := s.fifo ++ ws, env := v }) hc rep
    rw [hs]
    exact Inv.succeed (h.with_agents fun _ => { hplays with }) _

theorem wait_keeps_inv (npoll : Word) {s : State} (h : Inv s) : Inv (wait npoll s) := by
  rcases wait_cases npoll s with ⟨e, ph, ws, v, he, -, -, -, hp⟩ | ⟨-, he⟩ | ⟨-, -, k, ph, ws, v, -, he⟩ <;> rw [he]
  · refine Inv.raise (h.with_agents fun hb => ?_) e
    have hplays := h.streamPlays hb
    obtain ⟨hplaying, hforever⟩ := hp hplays.playing
    exact hplays.with_phase hplaying hforever
  · exact h.succeed _
  · exact Inv.succeed (h.with_agents (busy := false) nofun) _

/-! ### The invariant and the readout commands -/

theorem decodeFifo_keeps_inv (inv : Bool) {s : State} (h : Inv s) : Inv (decodeFifo inv s) := by
  rcases decodeFifo_cases inv s with ⟨e, ws, v, he, -⟩ | ⟨-, -, -, rd, ws, v, -, -, -, he⟩ <;> rw [he]
  · exact Inv.raise (h.with_agents h.streamPlays) e
  · exact Inv.succeed (h.with_agents h.streamPlays) _

theorem rstout_keeps_inv {s : State} (h : Inv s) : Inv (rstout s) := by
  rcases rstout_cases s with ⟨e, ws, v, he, -⟩ | ⟨hb, -, v, he⟩ <;> rw [he]
  · exact Inv.raise (h.with_agents h.streamPlays) e
  · exact Inv.succeed (h.with_agents fun e => nomatch hb.symm.trans e) _

theorem rdtrk_keeps_inv (trk : BitVec 5) (start count : Word) {s : State} (h : Inv s) :
    Inv (rdtrk trk start count s) := by
  rcases rdtrk_cases trk start count s with ⟨e, he, -⟩ | ⟨-, -, he⟩ <;> rw [he]
  · exact h.raise e
  · exact h.succeed _

/-! ### The invariant and the step -/

/-- Every command keeps the invariant. -/
theorem exec_keeps_inv {s t : State} (h : Inv s) : ∀ i : Instr, exec i s = .next t → Inv t
  | .addg pl ld mg rs, rfl => addg_keeps_inv pl ld mg rs h
  | .addp pl len ws, rfl => addp_keeps_inv pl len ws h
  | .addi pl d, rfl => addi_keeps_inv pl d h
  | .compile, rfl => compile_keeps_inv h
  | .reset mask, rfl => reset_keeps_inv mask h
  | .exec rep, rfl => execStream_keeps_inv rep h
  | .wait npoll, rfl => wait_keeps_inv npoll h
  | .decode inv, rfl => decodeFifo_keeps_inv inv h
  | .rstout, rfl => rstout_keeps_inv h
  | .status, rfl => h.succeed _
  | .rdtrk trk start count, rfl => rdtrk_keeps_inv trk start count h

theorem takePacket_of_cons {s : State} {p : Packet} {rest : List Packet} (h : s.cmds = p :: rest) :
    s.takePacket = some (p, { s with cmds := rest }) := by
  simp [State.takePacket, h]

/-- A packet that decodes is taken and runs (R30, R60). -/
theorem step_of_command {s : State} {p : Packet} {rest : List Packet} {i : Instr} (hc : s.cfg.wf = true)
    (h : s.cmds = p :: rest) (hd : decode p = .ok i) : step s = exec i { s with cmds := rest } := by
  simp [step, hc, takePacket_of_cons h, hd]

/-- A packet that is no command is taken and answered with `IllegalCommand` (R77). -/
theorem step_of_illegal {s : State} {p : Packet} {rest : List Packet} {e : DecodeError} (hc : s.cfg.wf = true)
    (h : s.cmds = p :: rest) (hd : decode p = .error e) :
    step s = .next (State.raise { s with cmds := rest } (illegal p.header)) := by
  simp [step, hc, takePacket_of_cons h, hd]

/-- Settles O44: with no packet the state stays, and else the packet's command, or its error, keeps the invariant. -/
theorem stepKeepsTheInvariant : Obligations.StepKeepsTheInvariant := by
  intro s t h hs
  cases hcmds : s.cmds with
  | nil =>
    rw [step_of_noPacket h.configured hcmds] at hs
    cases hs
    exact h
  | cons p rest =>
    have htaken : Inv { s with cmds := rest } := h.with_agents h.streamPlays
    cases hd : decode p with
    | ok i => exact exec_keeps_inv htaken i (step_of_command h.configured hcmds hd ▸ hs)
    | error e =>
      rw [step_of_illegal h.configured hcmds hd] at hs
      cases hs
      exact htaken.raise _

/-! ### What each command can write -/

/-- ADDG writes the queue and GSNAP, and of the flags it can only clear COMPILED (R21, R92). -/
theorem addg_frame (pl : Placement) (ld mg : Bool) (rs : List FieldRecord) (s : State) :
    ∃ queue gsnap compiled rsps, addg pl ld mg rs s = { s with queue, gsnap, compiled, rsps } ∧
      (s.compiled = false → compiled = false) := by
  rcases addg_cases pl ld mg rs s with ⟨e, he⟩ | ⟨idx, img, -, -, he⟩ <;> rw [he]
  · exact ⟨_, _, _, _, rfl, id⟩
  · exact ⟨_, _, _, _, rfl, fun _ => rfl⟩

/-- ADDP writes the queue, and of the flags it can only clear COMPILED (R92). -/
theorem addp_frame (pl : Placement) (len : Word) (ws : List Word) (s : State) :
    ∃ queue compiled rsps, addp pl len ws s = { s with queue, compiled, rsps } ∧
      (s.compiled = false → compiled = false) := by
  rcases addp_cases pl len ws s with ⟨e, he⟩ | ⟨idx, b, -, -, he⟩ <;> rw [he]
  · exact ⟨_, _, _, rfl, id⟩
  · exact ⟨_, _, _, rfl, fun _ => rfl⟩

/-- ADDI writes the queue, and of the flags it can only clear COMPILED (R92). -/
theorem addi_frame (pl : Placement) (d : Word) (s : State) :
    ∃ queue compiled rsps, addi pl d s = { s with queue, compiled, rsps } ∧
      (s.compiled = false → compiled = false) := by
  rcases addi_cases pl d s with ⟨e, he⟩ | ⟨idx, -, -, he⟩ <;> rw [he]
  · exact ⟨_, _, _, rfl, id⟩
  · exact ⟨_, _, _, rfl, fun _ => rfl⟩

/-- COMPILE writes the tracks and LENREG, and of the flags it can only set COMPILED (R120). -/
theorem compile_frame (s : State) :
    ∃ tracks lenreg compiled rsps, compile s = { s with tracks, lenreg, compiled, rsps } ∧
      (s.compiled = true → compiled = true) := by
  rcases compile_cases s with ⟨e, he⟩ | ⟨-, -, -, he⟩ <;> rw [he]
  · exact ⟨_, _, _, _, rfl, id⟩
  · exact ⟨_, _, _, _, rfl, fun _ => rfl⟩

/-- RESET writes the tracks, the queue and LENREG, and of the flags it can only clear COMPILED (R129). -/
theorem reset_frame (mask : Option Word) (s : State) :
    ∃ tracks queue lenreg compiled rsps, reset mask s = { s with tracks, queue, lenreg, compiled, rsps } ∧
      (s.compiled = false → compiled = false) := by
  rcases reset_cases mask s with ⟨e, he⟩ | ⟨-, -, he⟩ <;> rw [he]
  · exact ⟨_, _, _, _, _, rfl, id⟩
  · exact ⟨_, _, _, _, _, rfl, fun _ => rfl⟩

/-- EXEC writes nothing of `S` but BUSY, which it can only set (R130). -/
theorem execStream_frame (rep : BitVec 16) (s : State) :
    ∃ busy xport fifo drained env rsps, execStream rep s = { s with busy, xport, fifo, drained, env, rsps } ∧
      (s.busy = true → busy = true) := by
  rcases execStream_cases rep s with ⟨e, x, f, d, v, he, -⟩ | ⟨-, -, -, -, -, ws, v, -, he⟩ <;> rw [he]
  · exact ⟨_, _, _, _, _, _, rfl, id⟩
  · obtain ⟨env, hs⟩ := startTransport_frame { s with fifo := s.fifo ++ ws, env := v } rep
    rw [hs]
    exact ⟨_, _, _, _, _, _, rfl, fun _ => rfl⟩

/-- WAIT writes nothing of `S` but BUSY, which it can only clear (R131). -/
theorem wait_frame (npoll : Word) (s : State) :
    ∃ busy xport fifo env rsps, wait npoll s = { s with busy, xport, fifo, env, rsps } ∧
      (s.busy = false → busy = false) := by
  rcases wait_cases npoll s with ⟨e, ph, ws, v, he, -⟩ | ⟨-, he⟩ | ⟨-, -, k, ph, ws, v, -, he⟩ <;> rw [he]
  · exact ⟨_, _, _, _, _, rfl, id⟩
  · exact ⟨_, _, _, _, _, rfl, id⟩
  · exact ⟨_, _, _, _, _, rfl, fun _ => rfl⟩

/-- DECODE writes nothing of `S` but CONSUMED, which it can only set (R154). -/
theorem decodeFifo_frame (inv : Bool) (s : State) :
    ∃ consumed fifo env rsps, decodeFifo inv s = { s with consumed, fifo, env, rsps } ∧
      (s.consumed = true → consumed = true) := by
  rcases decodeFifo_cases inv s with ⟨e, ws, v, he, -⟩ | ⟨-, -, -, rd, ws, v, -, -, -, he⟩ <;> rw [he]
  · exact ⟨_, _, _, _, rfl, id⟩
  · exact ⟨_, _, _, _, rfl, fun _ => rfl⟩

/-- RSTOUT writes nothing of `S` but CONSUMED, which it can only clear (R157). -/
theorem rstout_frame (s : State) :
    ∃ consumed fifo drained env rsps, rstout s = { s with consumed, fifo, drained, env, rsps } ∧
      (s.consumed = false → consumed = false) := by
  rcases rstout_cases s with ⟨e, ws, v, he, -⟩ | ⟨-, -, v, he⟩ <;> rw [he]
  · exact ⟨_, _, _, _, _, rfl, id⟩
  · exact ⟨_, _, _, _, _, rfl, fun _ => rfl⟩

/-- RDTRK only answers (R171). -/
theorem rdtrk_frame (trk : BitVec 5) (start count : Word) (s : State) :
    ∃ rsps, rdtrk trk start count s = { s with rsps } := by
  rcases rdtrk_cases trk start count s with ⟨e, he, -⟩ | ⟨-, -, he⟩ <;> rw [he] <;> exact ⟨_, rfl⟩

/-- Settles O10: each element that a command's frame lets it write is one the spec names for that command. -/
theorem onlyNamedCommandsWriteEachElement : Obligations.OnlyNamedCommandsWriteEachElement := by
  intro i s t ht
  cases i with
  | addg pl ld mg rs =>
    obtain ⟨q, g, c, r, he, hc⟩ := addg_frame pl ld mg rs s
    cases ht
    rw [he]
    simp +contextual [hc]
  | addp pl len ws =>
    obtain ⟨q, c, r, he, hc⟩ := addp_frame pl len ws s
    cases ht
    rw [he]
    simp +contextual [hc]
  | addi pl d =>
    obtain ⟨q, c, r, he, hc⟩ := addi_frame pl d s
    cases ht
    rw [he]
    simp +contextual [hc]
  | compile =>
    obtain ⟨m, l, c, r, he, hc⟩ := compile_frame s
    cases ht
    rw [he]
    simp +contextual [hc]
  | reset mask =>
    obtain ⟨m, q, l, c, r, he, hc⟩ := reset_frame mask s
    cases ht
    rw [he]
    simp +contextual [hc]
  | exec rep =>
    obtain ⟨b, x, f, d, v, r, he, hb⟩ := execStream_frame rep s
    cases ht
    rw [he]
    simp +contextual [hb]
  | wait npoll =>
    obtain ⟨b, x, f, v, r, he, hb⟩ := wait_frame npoll s
    cases ht
    rw [he]
    simp +contextual [hb]
  | decode inv =>
    obtain ⟨c, f, v, r, he, hc⟩ := decodeFifo_frame inv s
    cases ht
    rw [he]
    simp +contextual [hc]
  | rstout =>
    obtain ⟨c, f, d, v, r, he, hc⟩ := rstout_frame s
    cases ht
    rw [he]
    simp +contextual [hc]
  | status =>
    cases ht
    simp [status]
  | rdtrk trk start count =>
    obtain ⟨r, he⟩ := rdtrk_frame trk start count s
    cases ht
    rw [he]
    simp

/-! ### The status word -/

theorem statusWord_bit0 (s : State) : (statusWord s).getLsbD 0 = s.busy := BitVec.getLsbD_concat_zero

theorem statusWord_bit1 (s : State) : (statusWord s).getLsbD 1 = s.compiled :=
  BitVec.getLsbD_concat_succ.trans BitVec.getLsbD_concat_zero

theorem statusWord_bit2 (s : State) : (statusWord s).getLsbD 2 = s.consumed :=
  BitVec.getLsbD_concat_succ.trans (BitVec.getLsbD_concat_succ.trans BitVec.getLsbD_concat_zero)

/-- Above the three flags the status word is QLEN and, below it, 13 zeros (R28). -/
theorem statusWord_getLsbD_add (s : State) (i : Nat) :
    (statusWord s).getLsbD (i + 3) = (BitVec.ofNat 16 s.qlen ++ 0#13).getLsbD i :=
  BitVec.getLsbD_concat_succ.trans (BitVec.getLsbD_concat_succ.trans BitVec.getLsbD_concat_succ)

theorem statusWord_zeros (s : State) {i : Nat} (h1 : 3 ≤ i) (h2 : i ≤ 15) : (statusWord s).getLsbD i = false := by
  obtain ⟨j, rfl⟩ := Nat.exists_eq_add_of_le' h1
  rw [statusWord_getLsbD_add, BitVec.getLsbD_append, if_pos (by omega), BitVec.getLsbD_zero]

theorem statusWord_qlen {s : State} (h : s.queue.length < 2 ^ 16) :
    (statusWord s).toNat / 2 ^ 16 = s.queue.length := by
  have := Bool.toNat_le s.consumed
  have := Bool.toNat_le s.compiled
  have := Bool.toNat_le s.busy
  rw [statusWord_toNat, State.qlen, Nat.mod_eq_of_lt h]
  omega

/-- Settles O41: the word is the status word. -/
theorem statusAnswersFlagsAndLength : Obligations.StatusAnswersFlagsAndLength := fun s =>
  ⟨statusWord s, rfl, statusWord_bit0 s, statusWord_bit1 s, statusWord_bit2 s, fun _ => statusWord_zeros s,
    statusWord_qlen⟩

/-! ### The step and the power-on state -/

/-- Settles O6: this is what the step does with a packet that decodes. -/
theorem stepRunsTheDecodedCommand : Obligations.StepRunsTheDecodedCommand :=
  fun _ _ _ _ => step_of_command

/-- Settles O45: each element has the value that power-on gives it. -/
theorem powerOnState : Obligations.PowerOnState :=
  fun _ => ⟨rfl, rfl, rfl, rfl, rfl, rfl, rfl, rfl, rfl⟩

end Sys2Proof.Machine

/-! PROOFS. The family of spec 20_memory.md: EXEC's hand-over of the stream (R52), the stream that no command touches
while BUSY is 1 (R47, R49), and the words that reach the FIFO (R51). -/

namespace Sys2Proof.Machine

/-! ### The stream vectors -/

@[simp] theorem Memory.vectors_length (m : Memory) (n : Nat) : (m.vectors n).length = n := by
  simp [Memory.vectors]

theorem Memory.vectors_getD (m : Memory) {n t : Nat} (ht : t < n) :
    (m.vectors n).getD t [] = m.map fun track => track.getD t false := by
  simp [Memory.vectors, ht]

/-- A vector has one bit for each track (R52). -/
theorem Memory.vectors_getD_length (m : Memory) {n t : Nat} (ht : t < n) :
    ((m.vectors n).getD t []).length = m.length := by
  rw [Memory.vectors_getD m ht, List.length_map]

/-- Bit `k` of `V[t]` is `T[k][t]` (R52). -/
theorem Memory.vectors_bit (m : Memory) {n t : Nat} (ht : t < n) (k : Nat) :
    ((m.vectors n).getD t []).getD k false = m.bit k t := by
  rw [Memory.vectors_getD m ht, Memory.bit]
  exact List.getD_map m [] fun track => track.getD t false

/-! ### EXEC's hand-over -/

/-- EXEC of a compiled stream whose three calls do not fail starts the transport (R130). -/
theorem execStream_of_completed {s : State} (rep : BitVec 16) (hb : s.busy = false) (hc : s.compiled = true)
    (h1 : answerFailed s.portCall.1 = false) (h2 : answerFailed s.portCall.2.portCall.1 = false)
    (h3 : answerFailed s.portCall.2.portCall.2.portCall.1 = false) :
    execStream rep s = State.succeed
      { s.portCall.2.portCall.2.portCall.2.startTransport rep with busy := true, drained := false } [] := by
  simp [execStream, hb, hc, h1, h2, h3]

/-- Settles O27: the three calls change only the FIFO and the schedule, so what the start hands over is read from `s`. -/
theorem execHandsTheStreamOver : Obligations.ExecHandsTheStreamOver := by
  intro s rep hinv hb hc h1 h2 h3
  obtain ⟨ws, v, hcalls, hquiet⟩ := portCall_thrice s
  have hexec := execStream_of_completed rep hb hc h1 h2 h3
  rw [hcalls] at hexec
  obtain ⟨env, hframe⟩ := startTransport_frame { s with fifo := s.fifo ++ ws, env := v } rep
  obtain ⟨ph, hxport, hendless, hrunning⟩ := startTransport_xport { s with fifo := s.fifo ++ ws, env := v } rep
  rw [hframe, hxport] at hexec
  obtain ⟨htracks, -⟩ := (Memory.wf_iff _ _).1 hinv.tracksWf
  refine ⟨_, ws, congrArg Host.Outcome.next hexec, rfl, hquiet, Memory.vectors_length _ _,
    fun i hi => ⟨?_, fun k _ => Memory.vectors_bit s.tracks hi k⟩, rfl, rfl, hendless, hrunning⟩
  exact (Memory.vectors_getD_length s.tracks hi).trans htracks

/-! ### Commands and the step while BUSY is 1 -/

/-- While BUSY is 1 the commands that it refuses answer `ExecBusy` and do nothing else (R90, R186). -/
theorem exec_of_busyRefuses {i : Instr} {s : State} (hb : s.busy = true) (hi : busyRefuses i = true) :
    exec i s = .next (s.raise (busyErr s (BitVec.ofNat 32 i.opcode))) := by
  cases i with
  | addg pl ld mg rs => simp [exec, execAddg, addg, builderIndex_busy hb, Instr.opcode]
  | addp pl len ws => simp [exec, execAddp, addp, builderIndex_busy hb, Instr.opcode]
  | addi pl d => simp [exec, execAddi, addi, builderIndex_busy hb, Instr.opcode]
  | compile => simp [exec, execCompile, compile, hb, Instr.opcode]
  | reset mask => simp [exec, execReset, reset, hb, Instr.opcode]
  | exec rep => simp [exec, execExec, execStream, hb, Instr.opcode]
  | decode inv => simp [exec, execDecode, decodeFifo, hb, Instr.opcode]
  | rstout => simp [exec, execRstout, rstout, hb, Instr.opcode]
  | wait npoll => cases hi
  | status => cases hi
  | rdtrk trk start count => cases hi

/-- Of the transport, WAIT's polls move only the phase (R131, R194). -/
theorem wait_phase_frame (npoll : Word) (s : State) :
    ∃ busy phase fifo env rsps,
      wait npoll s = { s with busy, xport := { s.xport with phase := phase }, fifo, env, rsps } := by
  rcases wait_cases npoll s with ⟨e, ph, ws, v, he, -⟩ | ⟨-, he⟩ | ⟨-, -, k, ph, ws, v, -, he⟩ <;> rw [he] <;>
    exact ⟨_, _, _, _, _, rfl⟩

/-- While BUSY is 1 a command writes nothing of `S` but BUSY, and of the transport only its phase (R47, R49, R186). -/
theorem exec_busy_frame {i : Instr} {s t : State} (hb : s.busy = true) (h : exec i s = .next t) :
    ∃ busy phase fifo env rsps,
      t = { s with busy, xport := { s.xport with phase := phase }, fifo, env, rsps } := by
  by_cases hi : busyRefuses i = true
  · cases (exec_of_busyRefuses hb hi).symm.trans h
    exact ⟨_, _, _, _, _, rfl⟩
  · cases i with
    | wait npoll => cases h; exact wait_phase_frame npoll s
    | status => cases h; exact ⟨_, _, _, _, _, rfl⟩
    | rdtrk trk start count =>
      obtain ⟨rsps, hrdtrk⟩ := rdtrk_frame trk start count s
      cases h
      exact ⟨_, _, _, _, rsps, hrdtrk⟩
    | _ => exact absurd rfl hi

/-- The step, which also takes a packet, writes no more (R30, R47, R49). -/
theorem step_busy_frame {s t : State} (hb : s.busy = true) (h : step s = .next t) :
    ∃ busy phase fifo env cmds rsps,
      t = { s with busy, xport := { s.xport with phase := phase }, fifo, env, cmds, rsps } := by
  cases hc : s.cfg.wf with
  | false => cases (step_of_badConfiguration hc).symm.trans h
  | true =>
    cases hcmds : s.cmds with
    | nil =>
      cases (step_of_noPacket hc hcmds).symm.trans h
      exact ⟨_, _, _, _, _, _, rfl⟩
    | cons p rest =>
      cases hd : decode p with
      | error e =>
        cases (step_of_illegal hc hcmds hd).symm.trans h
        exact ⟨_, _, _, _, _, _, rfl⟩
      | ok i =>
        obtain ⟨busy, phase, fifo, env, rsps, rfl⟩ :=
          exec_busy_frame (s := { s with cmds := rest }) hb ((step_of_command hc hcmds hd).symm.trans h)
        exact ⟨_, _, _, _, _, _, rfl⟩

/-- Settles O34: none of the six is in the frame of a step with BUSY 1. -/
theorem runningStreamIsNotChanged : Obligations.RunningStreamIsNotChanged := by
  intro s t hb h
  obtain ⟨busy, phase, fifo, env, cmds, rsps, rfl⟩ := step_busy_frame hb h
  exact ⟨rfl, rfl, rfl, rfl, rfl, rfl⟩

/-! ### Words that reach the FIFO -/

/-- The FIFO is quiet where the transport plays nothing or an RSTOUT stands (R197, log 8). -/
theorem fifoQuiet_iff (s : State) :
    s.fifoQuiet = true ↔ phasePlaying s.xport.phase = false ∨ s.drained = true := by
  simp [State.fifoQuiet, or_comm]

theorem portCall_fifo_of_quiet {s : State} (h : s.fifoQuiet = true) : s.portCall.2.fifo = s.fifo := by
  obtain ⟨ws, env, hcall, hquiet⟩ := portCall_frame s
  rw [hcall, hquiet h, List.append_nil]

/-- A FIFO that is not quiet takes the words scheduled next (R51, R192). -/
theorem portCall_fifo_of_scheduled {s : State} {ws : List Word} {rest : List (List Word)}
    (h : s.fifoQuiet = false) (hs : s.env.captures = ws :: rest) : s.portCall.2.fifo = s.fifo ++ ws := by
  simp [State.portCall, State.chipStep, State.capture, h, hs]

/-- Settles O40: the two clauses are the FIFO that is not quiet and the FIFO that is. -/
theorem playingTransportFillsTheFifo : Obligations.PlayingTransportFillsTheFifo := by
  refine fun s => ⟨fun hplays hdrained ws rest hs => ?_, fun h => portCall_fifo_of_quiet ((fifoQuiet_iff s).2 h)⟩
  have hloud : s.fifoQuiet = false := by simp [State.fifoQuiet, hplays, hdrained]
  exact portCall_fifo_of_scheduled hloud hs

end Sys2Proof.Machine

/-! PROOFS. The family of spec 30_encoding.md: what each row of the decoder accepts, the round trip between packets and
commands (R60 to R76), the packets that are no command (R77), and the assembly lines (R78, R80). -/

namespace Sys2Proof

open Machine

/-! ### What each row of the decoder accepts -/

/-- A check that fails with an error is passed by what the rest accepts. -/
@[simp] theorem ite_error_eq_ok_iff {c : Prop} [Decidable c] (row : Except DecodeError Instr) (e : DecodeError)
    (i : Instr) : (if c then row else .error e) = .ok i ↔ c ∧ row = .ok i := by
  by_cases hc : c <;> simp [hc]

@[simp] theorem decodeAddg_eq_ok_iff (h : Word) (ws : List Word) (i : Instr) :
    decodeAddg h ws = .ok i ↔ placementLegal h = true ∧ ∃ rs, decodeRecords (slice h 24 16) ws = some rs ∧
      .addg (placementOf h) (slice h 26 26 == 1) (slice h 25 25 == 1) rs = i := by
  unfold decodeAddg
  cases placementLegal h with
  | false => simp
  | true => cases decodeRecords (slice h 24 16) ws <;> simp

@[simp] theorem decodeAddp_eq_ok_iff (h : Word) (ws : List Word) (i : Instr) :
    decodeAddp h ws = .ok i ↔ placementLegal h = true ∧ ∃ len words, ws = len :: words ∧
      words.length = ceil32 len.toNat ∧ .addp (placementOf h) len words = i := by
  unfold decodeAddp
  cases placementLegal h with
  | false => simp
  | true =>
    cases ws with
    | nil => simp
    | cons len words => by_cases hl : words.length = ceil32 len.toNat <;> simp [hl]

@[simp] theorem decodeAddi_eq_ok_iff (h : Word) (ws : List Word) (i : Instr) :
    decodeAddi h ws = .ok i ↔ placementLegal h = true ∧ ∃ delay, ws = [delay] ∧ .addi (placementOf h) delay = i := by
  unfold decodeAddi
  cases placementLegal h with
  | false => simp
  | true => rcases ws with _ | ⟨delay, _ | ⟨_, _⟩⟩ <;> simp

@[simp] theorem decodeBare_eq_ok_iff (i : Instr) (ws : List Word) (j : Instr) :
    decodeBare i ws = .ok j ↔ ws = [] ∧ i = j := by
  cases ws <;> simp [decodeBare]

/-- The flag `S` counts the mask words (R68). -/
@[simp] theorem decodeReset_eq_ok_iff (h : Word) (ws : List Word) (i : Instr) :
    decodeReset h ws = .ok i ↔
      ∃ mask : Option Word, ws = mask.toList ∧ slice h 27 27 = mask.toList.length ∧ .reset mask = i := by
  unfold decodeReset
  rcases ws with _ | ⟨m, _ | ⟨_, _⟩⟩ <;> split <;> simp_all [Option.exists]

@[simp] theorem decodeWait_eq_ok_iff (ws : List Word) (i : Instr) :
    decodeWait ws = .ok i ↔ ∃ npoll, ws = [npoll] ∧ .wait npoll = i := by
  rcases ws with _ | ⟨npoll, _ | ⟨_, _⟩⟩ <;> simp [decodeWait]

@[simp] theorem decodeRdtrk_eq_ok_iff (h : Word) (ws : List Word) (i : Instr) :
    decodeRdtrk h ws = .ok i ↔
      ∃ start count, ws = [start, count] ∧ .rdtrk (BitVec.ofNat 5 (slice h 20 16)) start count = i := by
  rcases ws with _ | ⟨start, _ | ⟨count, _ | ⟨_, _⟩⟩⟩ <;> simp [decodeRdtrk]

/-! ### Headers -/

theorem slice_lt (w : Word) (hi lo : Nat) : slice w hi lo < 2 ^ (hi - lo + 1) := Nat.mod_lt _ (Nat.two_pow_pos _)

theorem opcodeOf_eq_div (h : Word) : opcodeOf h = h.toNat / 2 ^ 28 := by
  have := h.isLt
  simp only [opcodeOf, slice]
  omega

theorem encode_eq_iff {i : Instr} (hi : i.wf = true) (p : Packet) :
    encode i = p ↔ headerBits i = p.header.toNat ∧ p.payload = payloadWords i := by
  obtain ⟨h, ws⟩ := p
  rw [← encode_header_toNat i hi, BitVec.toNat_inj, encode, Packet.mk.injEq, eq_comm (a := ws)]

/-! ### The layout of each header (R63 to R74)

Of the headers with its opcode, a command has the one whose reserved bits are 0 and whose fields are its operands. -/

section
variable {h : Word}

/-- The bits of a legal placement are `P` and `POS` (R61). -/
theorem placeBits_eq_iff (pl : Placement) :
    placeBits pl = slice h 27 27 * 2 ^ 27 + slice h 15 0 ↔ placementLegal h = true ∧ placementOf h = pl := by
  constructor
  · intro hb
    refine placement_ofNat pl (slice_lt h 26 16) ?_
    rw [hb]
    simp only [slice]
    omega
  · rintro ⟨hl, rfl⟩
    exact placement_toNat hl

/-- The placement fills bit 27 and bits 15 to 0 and no other (R61). -/
theorem placeBits_fields (pl : Placement) : ∃ p < 2, ∃ pos < 2 ^ 16, placeBits pl = p * 2 ^ 27 + pos := by
  cases pl with
  | none => exact ⟨0, by decide, 0, by decide, rfl⟩
  | some pos => exact ⟨1, by decide, pos.toNat, pos.isLt, rfl⟩

/-- The rows ADDP and ADDI, whose only header operand is the placement. -/
theorem headerBits_placed_iff {i : Instr} {pl : Placement} (hi : (∃ len ws, i = .addp pl len ws) ∨ ∃ d, i = .addi pl d)
    (ho : opcodeOf h = i.opcode) :
    headerBits i = h.toNat ↔ reservedBitsClear h = true ∧ placementLegal h = true ∧ placementOf h = pl := by
  have hpl := placeBits_fields pl
  rw [← placeBits_eq_iff]
  rcases hi with ⟨_, _, rfl⟩ | ⟨_, rfl⟩ <;>
  · simp only [headerBits, reservedBitsClear, ho, Instr.opcode, beq_iff_eq]
    simp only [opcodeOf, slice, Instr.opcode] at ho ⊢
    omega

/-- The rows whose header has no operand: COMPILE, WAIT, RSTOUT and STATUS. -/
theorem headerBits_bare_iff {i : Instr} (hi : i = .compile ∨ (∃ npoll, i = .wait npoll) ∨ i = .rstout ∨ i = .status)
    (ho : opcodeOf h = i.opcode) : headerBits i = h.toNat ↔ reservedBitsClear h = true := by
  rcases hi with rfl | ⟨_, rfl⟩ | rfl | rfl <;>
  · simp only [headerBits, reservedBitsClear, ho, Instr.opcode, beq_iff_eq]
    simp only [opcodeOf, slice, Instr.opcode] at ho ⊢
    omega

theorem headerBits_reset_iff (ho : opcodeOf h = 5) (mask : Option Word) :
    headerBits (.reset mask) = h.toNat ↔ reservedBitsClear h = true ∧ slice h 27 27 = mask.toList.length := by
  cases mask <;>
  · simp only [headerBits, reservedBitsClear, ho, beq_iff_eq, Option.toList, List.length_nil, List.length_singleton]
    simp only [opcodeOf, slice] at ho ⊢
    omega

theorem headerBits_exec_iff (ho : opcodeOf h = 6) (rep : BitVec 16) :
    headerBits (.exec rep) = h.toNat ↔ reservedBitsClear h = true ∧ BitVec.ofNat 16 (slice h 15 0) = rep := by
  have := rep.isLt
  simp only [headerBits, reservedBitsClear, ho, beq_iff_eq, ← BitVec.toNat_inj, BitVec.toNat_ofNat]
  simp only [opcodeOf, slice] at ho ⊢
  omega

theorem headerBits_decode_iff (ho : opcodeOf h = 8) (inv : Bool) :
    headerBits (.decode inv) = h.toNat ↔ reservedBitsClear h = true ∧ (slice h 0 0 == 1) = inv := by
  cases inv <;>
  · simp only [headerBits, reservedBitsClear, ho, beq_iff_eq, beq_eq_false_iff_ne]
    simp only [opcodeOf, slice] at ho ⊢
    omega

theorem headerBits_rdtrk_iff (ho : opcodeOf h = 11) (trk : BitVec 5) (start count : Word) :
    headerBits (.rdtrk trk start count) = h.toNat ↔
      reservedBitsClear h = true ∧ BitVec.ofNat 5 (slice h 20 16) = trk := by
  have := trk.isLt
  simp only [headerBits, reservedBitsClear, ho, beq_iff_eq, Bool.and_eq_true, ← BitVec.toNat_inj, BitVec.toNat_ofNat]
  simp only [opcodeOf, slice] at ho ⊢
  omega

theorem headerBits_addg_iff (ho : opcodeOf h = 1) (pl : Placement) (ld mg : Bool) {rs : List FieldRecord}
    (hn : rs.length ≤ 511) :
    headerBits (.addg pl ld mg rs) = h.toNat ↔ (placementLegal h = true ∧ placementOf h = pl) ∧
      (slice h 26 26 == 1) = ld ∧ (slice h 25 25 == 1) = mg ∧ slice h 24 16 = rs.length := by
  rw [← placeBits_eq_iff]
  have hpl := placeBits_fields pl
  simp only [headerBits]
  cases ld <;> cases mg <;>
  · simp only [beq_iff_eq, beq_eq_false_iff_ne, Bool.false_eq_true, if_true, if_false]
    simp only [opcodeOf, slice] at ho ⊢
    omega

end

/-! ### The round trip -/

/-- A packet that decodes has the opcode of its command (R62). -/
theorem opcodeOf_of_decode {p : Packet} {i : Instr} (h : decode p = .ok i) : opcodeOf p.header = i.opcode := by
  unfold decode at h
  rw [ite_error_eq_ok_iff] at h
  obtain ⟨-, hrow⟩ := h
  split at hrow
  next ho => obtain ⟨-, _, -, rfl⟩ := (decodeAddg_eq_ok_iff _ _ _).1 hrow; exact ho
  next ho => obtain ⟨-, _, _, -, -, rfl⟩ := (decodeAddp_eq_ok_iff _ _ _).1 hrow; exact ho
  next ho => obtain ⟨-, _, -, rfl⟩ := (decodeAddi_eq_ok_iff _ _ _).1 hrow; exact ho
  next ho => obtain ⟨-, rfl⟩ := (decodeBare_eq_ok_iff _ _ _).1 hrow; exact ho
  next ho => obtain ⟨_, -, -, rfl⟩ := (decodeReset_eq_ok_iff _ _ _).1 hrow; exact ho
  next ho => obtain ⟨-, rfl⟩ := (decodeBare_eq_ok_iff _ _ _).1 hrow; exact ho
  next ho => obtain ⟨_, -, rfl⟩ := (decodeWait_eq_ok_iff _ _).1 hrow; exact ho
  next ho => obtain ⟨-, rfl⟩ := (decodeBare_eq_ok_iff _ _ _).1 hrow; exact ho
  next ho => obtain ⟨-, rfl⟩ := (decodeBare_eq_ok_iff _ _ _).1 hrow; exact ho
  next ho => obtain ⟨-, rfl⟩ := (decodeBare_eq_ok_iff _ _ _).1 hrow; exact ho
  next ho => obtain ⟨_, _, -, rfl⟩ := (decodeRdtrk_eq_ok_iff _ _ _).1 hrow; exact ho
  next => cases hrow

/-- The records of a payload decode exactly where the payload is theirs (R64). -/
theorem decodeRecords_eq_some_iff (n : Nat) (ws : List Word) (rs : List FieldRecord) :
    decodeRecords n ws = some rs ↔
      rs.all FieldRecord.wf = true ∧ n = rs.length ∧ ws = rs.flatMap fun r => recordWord r :: r.words := by
  constructor
  · intro h
    obtain ⟨hlen, hwf, hws⟩ := decodeRecords_encode h
    exact ⟨hwf, hlen.symm, hws.symm⟩
  · rintro ⟨hwf, rfl, rfl⟩
    exact decodeRecords_payload rs hwf

/-- The row of an opcode accepts exactly the packets that the encoder gives for its commands. -/
theorem decode_eq_ok_iff_of_opcode {p : Packet} {i : Instr} (ho : opcodeOf p.header = i.opcode) :
    decode p = .ok i ↔ i.wf = true ∧ headerBits i = p.header.toNat ∧ p.payload = payloadWords i := by
  cases i with
  | addg pl ld mg rs =>
    have hr : reservedBitsClear p.header = true := by simp [reservedBitsClear, ho, Instr.opcode]
    by_cases hn : rs.length ≤ 511
    · simp [decode, ho, Instr.opcode, Instr.wf, payloadWords, decodeRecords_eq_some_iff, headerBits_addg_iff ho, hr, hn,
        and_comm, and_left_comm, and_assoc]
    · have hcount : slice p.header 24 16 ≠ rs.length := by have := slice_lt p.header 24 16; omega
      simp [decode, ho, Instr.opcode, Instr.wf, decodeRecords_eq_some_iff, hn, hcount]
  | addp pl len ws =>
    have hh := headerBits_placed_iff (pl := pl) (i := .addp pl len ws) (by simp) ho
    simp [decode, ho, Instr.opcode, Instr.wf, payloadWords, hh, and_comm, and_left_comm, and_assoc]
  | addi pl delay =>
    have hh := headerBits_placed_iff (pl := pl) (i := .addi pl delay) (by simp) ho
    simp [decode, ho, Instr.opcode, Instr.wf, payloadWords, hh, and_comm, and_left_comm, and_assoc]
  | compile =>
    have hh := headerBits_bare_iff (i := .compile) (by simp) ho
    simp [decode, ho, Instr.opcode, Instr.wf, payloadWords, hh]
  | reset mask =>
    simp [decode, ho, Instr.opcode, Instr.wf, payloadWords, headerBits_reset_iff ho, and_comm, and_left_comm]
  | exec rep =>
    simp [decode, ho, Instr.opcode, Instr.wf, payloadWords, headerBits_exec_iff ho, and_comm, and_left_comm]
  | wait npoll =>
    have hh := headerBits_bare_iff (i := .wait npoll) (by simp) ho
    simp [decode, ho, Instr.opcode, Instr.wf, payloadWords, hh]
  | decode inv =>
    simp [decode, ho, Instr.opcode, Instr.wf, payloadWords, headerBits_decode_iff ho, and_comm, and_left_comm]
  | rstout =>
    have hh := headerBits_bare_iff (i := .rstout) (by simp) ho
    simp [decode, ho, Instr.opcode, Instr.wf, payloadWords, hh]
  | status =>
    have hh := headerBits_bare_iff (i := .status) (by simp) ho
    simp [decode, ho, Instr.opcode, Instr.wf, payloadWords, hh]
  | rdtrk trk start count =>
    simp [decode, ho, Instr.opcode, Instr.wf, payloadWords, headerBits_rdtrk_iff ho, and_comm, and_left_comm]

/-- The decoder and the encoder are inverse to each other (R60 to R76). -/
theorem decode_eq_ok_iff (p : Packet) (i : Instr) : decode p = .ok i ↔ i.wf = true ∧ encode i = p := by
  by_cases ho : opcodeOf p.header = i.opcode
  · rw [decode_eq_ok_iff_of_opcode ho, and_congr_right fun hi => encode_eq_iff hi p]
  · refine iff_of_false (fun h => ho (opcodeOf_of_decode h)) ?_
    rintro ⟨hi, rfl⟩
    exact ho (encode_opcodeOf i hi)

theorem decode_of_encode {p : Packet} {i : Instr} (hi : i.wf = true) (h : encode i = p) : decode p = .ok i :=
  (decode_eq_ok_iff p i).2 ⟨hi, h⟩

/-! ### Which packets decode -/

/-- The words of a mask are as many as the one-bit number `n` says exactly when there are `n` of them (R68). -/
theorem exists_mask_iff {n : Nat} (hn : n < 2) (ws : List Word) :
    (∃ mask : Option Word, ws = mask.toList ∧ n = mask.toList.length) ↔ ws.length = n := by
  constructor
  · rintro ⟨mask, rfl, rfl⟩
    rfl
  · intro hlen
    obtain rfl | rfl : n = 0 ∨ n = 1 := by omega
    · exact ⟨none, List.length_eq_zero_iff.1 hlen, rfl⟩
    · obtain ⟨m, rfl⟩ := List.length_eq_one_iff.1 hlen
      exact ⟨some m, rfl, rfl⟩

/-- `LEN` and its words are a payload exactly when the payload has the length that its first word gives (R65, R76). -/
theorem exists_pattern_iff (ws : List Word) :
    (∃ len words, ws = len :: words ∧ words.length = ceil32 len.toNat) ↔
      ws.length = 1 + ceil32 (ws.getD 0 0).toNat := by
  cases ws <;> simp [Nat.add_comm 1]

/-- A packet decodes exactly where each of the four causes of R77 is excluded. -/
theorem exists_decode_iff (p : Packet) :
    (∃ i, decode p = .ok i) ↔ reservedBitsClear p.header = true ∧ (1 ≤ opcodeOf p.header ∧ opcodeOf p.header ≤ 11) ∧
      (opcodeOf p.header ∈ [1, 2, 3] → placementLegal p.header = true) ∧ p.length = expectedLength p := by
  have hlength : p.length = expectedLength p ↔
      p.payload.length = payloadLength p.header fun i => p.payload.getD i 0 := Nat.add_left_cancel_iff
  rw [hlength]
  cases hr : reservedBitsClear p.header with
  | false => simp [decode, hr]
  | true =>
    simp only [decode, hr, if_true]
    split
    case h_1 ho =>
      have hrecords := decodeRecords_isSome_iff (slice p.header 24 16) p.payload []
      simpa [payloadLength, ho] using fun _ => hrecords
    case h_2 ho => simpa [payloadLength, ho] using fun _ => exists_pattern_iff p.payload
    case h_5 ho => simp [payloadLength, ho, exists_mask_iff (slice_lt p.header 27 27)]
    case h_3 ho | h_7 ho => simp [payloadLength, ho, List.length_eq_one_iff]
    case h_11 ho => simp [payloadLength, ho, List.length_eq_two]
    case h_4 ho | h_6 ho | h_8 ho | h_9 ho | h_10 ho => simp [payloadLength, ho]
    case h_12 =>
      have hop : ¬ (1 ≤ opcodeOf p.header ∧ opcodeOf p.header ≤ 11) := by grind
      simp [hop]

/-- Settles O1: the packet of a well-formed command decodes, so its length is the expected one. -/
theorem encodedCommandDecodesBack : Obligations.EncodedCommandDecodesBack := by
  intro i hi
  have hd := decode_of_encode hi rfl
  obtain ⟨-, -, -, hlength⟩ := (exists_decode_iff _).1 ⟨i, hd⟩
  exact ⟨hd, hlength⟩

/-- Settles O2: the decoder accepts nothing else than the packets that the encoder gives. -/
theorem decodedPacketEncodesBack : Obligations.DecodedPacketEncodesBack :=
  fun p i => (decode_eq_ok_iff p i).1

/-- The spec's causes are the decoder's, one by one (R77). -/
theorem packetIllegal_iff (p : Packet) : packetIllegal p ↔ ¬ ∃ i, decode p = .ok i := by
  have hop : opcodeOf p.header = 0 ∨ 12 ≤ opcodeOf p.header ↔ ¬ (1 ≤ opcodeOf p.header ∧ opcodeOf p.header ≤ 11) := by
    omega
  have hreserved : (∃ i, reservedBit (opcodeOf p.header) i = true ∧ p.header.getLsbD i = true) ↔
      ¬ reservedBitsClear p.header = true := by
    simp [reservedBitsClear_iff]
  have hplace := placementLegal_iff p.header
  rw [exists_decode_iff, packetIllegal, ← opcodeOf_eq_div, ← or_assoc, hop, hreserved]
  tauto

theorem exists_error_iff (p : Packet) : (∃ e, decode p = .error e) ↔ ¬ ∃ i, decode p = .ok i := by
  cases decode p <;> simp

/-- Settles O5: what does not decode is illegal, and the step answers it with the words of `IllegalCommand`. -/
theorem illegalPacketRaisesIllegalCommand : Obligations.IllegalPacketRaisesIllegalCommand := by
  have hillegal : ∀ p, packetIllegal p ↔ ∃ e, decode p = .error e := fun p => by
    rw [packetIllegal_iff, exists_error_iff]
  refine ⟨hillegal, fun s p rest hc hcmds hp => ?_⟩
  obtain ⟨e, he⟩ := (hillegal p).1 hp
  rw [step_of_illegal hc hcmds he, State.raise, words_illegal]
  rfl

/-- Settles O4: each packet is the encoder's packet of the command beside it. -/
theorem headerLayoutsDecode : Obligations.HeaderLayoutsDecode :=
  ⟨decode_of_encode rfl rfl, decode_of_encode rfl rfl, decode_of_encode rfl rfl, decode_of_encode rfl rfl,
    decode_of_encode rfl rfl, decode_of_encode rfl rfl, decode_of_encode rfl rfl, decode_of_encode rfl rfl,
    decode_of_encode rfl rfl, decode_of_encode rfl rfl⟩

/-! ### Assembly -/

/-- A value travels in the words that its length asks for (R75). -/
theorem valueWords_length {len value : Nat} {ws : List Word} (h : valueWords len value = some ws) :
    ws.length = ceil32 len := by
  unfold valueWords at h
  split at h <;> cases h
  simp [beWords]

theorem asmRecord_wf {c : Config} {f : AsmField} {r : FieldRecord} (h : asmRecord c f = some r) : r.wf = true := by
  rw [FieldRecord.wf, beq_iff_eq]
  unfold asmRecord at h
  split at h
  · obtain ⟨ws, hws, rfl⟩ := Option.map_eq_some_iff.1 h
    exact valueWords_length hws
  · obtain ⟨hwidth, hrecord⟩ := Option.ite_none_right_eq_some.1 h
    obtain ⟨ws, hws, rfl⟩ := Option.map_eq_some_iff.1 hrecord
    rw [BitVec.toNat_ofNat, Nat.mod_eq_of_lt hwidth]
    exact valueWords_length hws
  · cases h

theorem asmRecords_wf {c : Config} {fs : List AsmField} {rs : List FieldRecord} (h : asmRecords c fs = some rs) :
    rs.length = fs.length ∧ rs.all FieldRecord.wf = true := by
  induction fs generalizing rs with
  | nil => cases h; exact ⟨rfl, rfl⟩
  | cons f fs ih =>
    unfold asmRecords at h
    split at h
    next r rs' hr hrs =>
      cases h
      obtain ⟨hlen, hwf⟩ := ih hrs
      exact ⟨congrArg (· + 1) hlen, by rw [List.all_cons, asmRecord_wf hr, hwf]; rfl⟩
    next => cases h

theorem asmPattern_length {c : Config} {pat : AsmPattern} {len : Word} {ws : List Word}
    (h : asmPattern c pat = some (len, ws)) : ws.length = ceil32 len.toNat := by
  cases pat with
  | int value l =>
    simp only [asmPattern, Option.bind_eq_some_iff, Option.map_eq_some_iff] at h
    obtain ⟨_, -, _, hws, heq⟩ := h
    cases heq
    exact valueWords_length hws
  | digits bits l =>
    simp only [asmPattern, Option.bind_eq_some_iff, Option.map_eq_some_iff, Option.ite_none_right_eq_some] at h
    obtain ⟨_, -, -, _, hws, heq⟩ := h
    cases heq
    exact valueWords_length hws

/-- Only ADDG and ADDP have operands that their types do not bound. -/
theorem assemble_wf {c : Config} {l : AsmLine} {i : Instr} (h : assemble c l = some i) : i.wf = true := by
  cases l with
  | addg ld mg pl fs =>
    obtain ⟨hn, hrecords⟩ := Option.ite_none_right_eq_some.1 h
    obtain ⟨rs, hrs, rfl⟩ := Option.map_eq_some_iff.1 hrecords
    obtain ⟨hlen, hwf⟩ := asmRecords_wf hrs
    rw [Instr.wf, hwf, hlen, decide_eq_true hn]
    rfl
  | addp pl pat =>
    obtain ⟨⟨len, ws⟩, hpat, rfl⟩ := Option.map_eq_some_iff.1 h
    exact beq_iff_eq.2 (asmPattern_length hpat)
  | _ => cases h; rfl

/-- A field written without a length takes its width, in as many words as that asks for (R75, R78). -/
theorem asmRecord_without_length {c : Config} {fid : BitVec 16} {f : Field} {v : Nat}
    (hf : c.gfields[fid.toNat]? = some f) (hwidth : f.width < 2 ^ 16) (hv : v < 2 ^ f.width) :
    asmRecord c ⟨fid, none, v⟩ = some ⟨fid, BitVec.ofNat 16 f.width, beWords (ceil32 f.width) v⟩ := by
  have hroom : v < 2 ^ (32 * ceil32 f.width) := hv.trans_le (Nat.pow_le_pow_right (by decide) (le_mul_ceil32 _))
  simp only [asmRecord, hf, if_pos hwidth, valueWords, if_pos hroom, Option.map_some]

/-- Settles O48: what a line assembles to is well-formed, and a default length is the width of a field that fits. -/
theorem assembledLineIsWellFormed : Obligations.AssembledLineIsWellFormed := by
  refine ⟨fun c l i h => ⟨assemble_wf h, decode_of_encode (assemble_wf h) rfl⟩, fun c fid f v hc hf hv => ?_⟩
  obtain ⟨-, hvalue⟩ := valueCarriageReadsBack f.width v hv
  have hwidth : f.width < 2 ^ 16 := Nat.lt_succ_of_le (field_width hc (List.mem_of_getElem? hf)).2
  have hlen : (BitVec.ofNat 16 f.width).toNat = f.width := Nat.mod_eq_of_lt hwidth
  exact ⟨_, asmRecord_without_length hf hwidth hv, rfl, hvalue, (recordOk_iff _ _).2 ⟨f, hf, hlen, hvalue.trans_lt hv⟩⟩

/-- Settles O3: both fields take their widths, and the packet is the encoder's of the two records. -/
theorem workedEncodingOfAddg : Obligations.WorkedEncodingOfAddg := by
  have hpacket : encode (.addg none false false [⟨0, 3, [6]⟩, ⟨1, 5, [3]⟩]) =
      ⟨0x10020000, [0x00000003, 0x00000006, 0x00010005, 0x00000003]⟩ := by decide
  refine ⟨decode_of_encode (by decide) hpacket, fun c n0 n1 hfields => ?_⟩
  have h0 : asmRecord c ⟨0, none, 6⟩ = some ⟨0, 3, [6]⟩ := by
    rw [asmRecord_without_length (f := ⟨n0, 0, 3, false⟩) (by simp [hfields]) (by simp) (by simp)]
    simp [beWords, ceil32]
  have h1 : asmRecord c ⟨1, none, 3⟩ = some ⟨1, 5, [3]⟩ := by
    rw [asmRecord_without_length (f := ⟨n1, 3, 5, false⟩) (by simp [hfields]) (by simp) (by simp)]
    simp [beWords, ceil32]
  have hline : assemble c (.addg false false none [⟨0, none, 6⟩, ⟨1, none, 3⟩]) =
      some (.addg none false false [⟨0, 3, [6]⟩, ⟨1, 5, [3]⟩]) := by
    simp only [assemble, asmRecords, h0, h1]
    rfl
  rw [hline, Option.map_some, hpacket]

end Sys2Proof

/-! PROOFS. The family of spec 40_builder.md: the placement errors of the builders (R90), the blocks that ADDG, ADDP and
ADDI place and the operands they refuse (R91, R95 to R98), the base image (R93) and the shift image (R94). -/

namespace Sys2Proof.Machine

/-! ### Placing a block -/

/-- An error only sends its response: the context, then the track and the code, then the value (R184, R185). -/
theorem raise_eq (s : State) (code : ErrCode) (ctx : BitVec 16) (trk : BitVec 8) (v : Word) :
    s.raise ⟨code, ctx, trk, v⟩ = { s with rsps := s.rsps ++ [[ctx ++ (trk ++ code.code), v]] } := by
  rw [State.raise, Err.words, BitVec.append_assoc]
  rfl

theorem placeAt_eq_append_cons (q : List Block) (idx : Nat) (b : Block) :
    placeAt q idx b = q.take idx ++ b :: q.drop idx := by
  simp [placeAt]

theorem builderAdmits_iff (pl : Placement) (s : State) :
    builderAdmits pl s = true ↔ (s.busy = false ∧ placeIndex pl s ≤ s.queue.length) ∧ s.queue.length < s.cfg.qmax := by
  simp [builderAdmits]

/-- The index of an admitted block is its own response word, for it is below `QMAX` (R5, R90). -/
theorem numWord_placeIndex {s : State} (h : Inv s) {pl : Placement} (ha : builderAdmits pl s = true) :
    numWord (placeIndex pl s) = BitVec.ofNat 32 (placeIndex pl s) := by
  obtain ⟨⟨-, hidx⟩, hroom⟩ := (builderAdmits_iff pl s).1 ha
  obtain ⟨-, -, -, hqmax⟩ := Config.bounds h.configured
  exact numWord_of_lt (by omega)

/-- What a builder that succeeds leaves: the block at its index, the image, COMPILED 0 and the index answered (R91,
R92). -/
theorem succeed_place {s : State} (h : Inv s) {pl : Placement} (ha : builderAdmits pl s = true) (b : Block)
    (img : Bits) :
    State.succeed { s.place (placeIndex pl s) b with gsnap := img } [numWord (placeIndex pl s)] =
      { s with
        queue := s.queue.take (placeIndex pl s) ++ b :: s.queue.drop (placeIndex pl s)
        gsnap := img
        compiled := false
        rsps := s.rsps ++ [[0, BitVec.ofNat 32 (placeIndex pl s)]] } := by
  rw [numWord_placeIndex h ha, ← placeAt_eq_append_cons]
  rfl

/-! ### Placement errors -/

theorem builderIndex_badPosition {s : State} (hb : s.busy = false) {pos : BitVec 16}
    (hpos : s.queue.length < pos.toNat) (op : Word) :
    builderIndex op (some pos) s = .error ⟨.badPosition, ctxOf s.qlen, noTrack, pos.setWidth 32⟩ := by
  simp [builderIndex, hb, State.qlen, hpos]

theorem builderIndex_queueFull {s : State} (hb : s.busy = false) {pl : Placement}
    (hidx : placeIndex pl s ≤ s.queue.length) (hfull : s.queue.length = s.cfg.qmax) (op : Word) :
    builderIndex op pl s = .error ⟨.queueFull, ctxOf s.qlen, noTrack, numWord s.cfg.qmax⟩ := by
  cases pl with
  | none => simp [builderIndex, hb, State.qlen, hfull]
  | some pos =>
    have hpos : pos.toNat ≤ s.cfg.qmax := hfull ▸ hidx
    simp [builderIndex, hb, State.qlen, hfull, Nat.not_lt.2 hpos]

/-- Every builder ends with the error of its preamble (R90). -/
theorem exec_of_builderIndex_error {pl : Placement} {s : State} {e : Err} (he : ∀ op, builderIndex op pl s = .error e)
    {i : Instr} (hi : (∃ ld mg rs, i = .addg pl ld mg rs) ∨ (∃ len ws, i = .addp pl len ws) ∨ ∃ d, i = .addi pl d) :
    exec i s = .next (s.raise e) := by
  rcases hi with ⟨ld, mg, rs, rfl⟩ | ⟨len, ws, rfl⟩ | ⟨d, rfl⟩
  · simp [exec, execAddg, addg, he]
  · simp [exec, execAddp, addp, he]
  · simp [exec, execAddi, addi, he]

/-- Settles O12: the preamble, which the three builders share, checks the position and then the room. -/
theorem builderPlacementErrors : Obligations.BuilderPlacementErrors := by
  intro pl s i hb hi
  constructor
  · rintro pos rfl hpos
    rw [exec_of_builderIndex_error (builderIndex_badPosition hb hpos) hi, raise_eq]
    rfl
  · intro hidx hfull hqmax
    rw [exec_of_builderIndex_error (builderIndex_queueFull hb hidx hfull) hi, raise_eq, numWord_of_lt hqmax]
    rfl

/-! ### ADDG -/

theorem exec_addg_of_applied {s : State} {pl : Placement} (ha : builderAdmits pl s = true) {mg : Bool}
    {rs : List FieldRecord} {img : Bits}
    (hr : applyRecords s.cfg (placeIndex pl s) rs (if mg then s.gsnap else baseImage s.cfg) = .ok img) (ld : Bool) :
    exec (.addg pl ld mg rs) s = .next (State.succeed
      { s.place (placeIndex pl s) (globalBlock s.cfg img ld) with gsnap := img } [numWord (placeIndex pl s)]) := by
  simp [exec, execAddg, addg, builderIndex_ok ha, hr]

/-- Settles O13: valid records all apply to an image of the register's width, and the block is made of the result. -/
theorem addgBuildsTheGlobalBlock : Obligations.AddgBuildsTheGlobalBlock := by
  intro s pl ld mg rs hinv ha hrs
  have hbase : (if mg then s.gsnap else baseImage s.cfg).length = s.cfg.globalWidth := by
    cases mg with
    | true => exact hinv.gsnapLen
    | false => exact baseImage_length _
  obtain ⟨img, himg, hlen, hbits⟩ := applyRecords_ok hinv.configured (placeIndex pl s) hrs hbase
  refine ⟨img, hlen, fun p _ => hbits p, ?_⟩
  rw [exec_addg_of_applied ha himg, succeed_place hinv ha]
  rfl

theorem applyRecord_unknownField {c : Config} {r : FieldRecord} (hf : c.gfields[r.fid.toNat]? = none) (idx : Nat)
    (img : Bits) : applyRecord c idx r img = .error ⟨.unknownField, ctxOf idx, 0, recordWord r⟩ := by
  simp [applyRecord, hf]

theorem applyRecord_patternLength {c : Config} {r : FieldRecord} {f : Field} (hf : c.gfields[r.fid.toNat]? = some f)
    (hl : r.len.toNat ≠ f.width) (idx : Nat) (img : Bits) :
    applyRecord c idx r img = .error ⟨.patternLength, ctxOf idx, 0, recordWord r⟩ := by
  simp [applyRecord, hf, hl]

theorem applyRecord_valueRange {c : Config} {r : FieldRecord} {f : Field} (hf : c.gfields[r.fid.toNat]? = some f)
    (hl : r.len.toNat = f.width) (hx : 2 ^ f.width ≤ beInt r.words) (idx : Nat) (img : Bits) :
    applyRecord c idx r img = .error ⟨.valueRange, ctxOf idx, 0, recordWord r⟩ := by
  simp [applyRecord, hf, hl, hx]

/-- The first record that is not valid ends ADDG with its error (R96). -/
theorem exec_addg_of_badRecord {s : State} {pl : Placement} (ha : builderAdmits pl s = true) {good : List FieldRecord}
    (hg : good.all (recordOk s.cfg) = true) {r : FieldRecord} {e : Err}
    (he : ∀ img, applyRecord s.cfg (placeIndex pl s) r img = .error e) (ld mg : Bool) (rest : List FieldRecord) :
    exec (.addg pl ld mg (good ++ r :: rest)) s = .next (s.raise e) := by
  simp [exec, execAddg, addg, builderIndex_ok ha, applyRecords_bad _ hg he]

/-- Settles O14: a record is not valid for one of three causes, checked in the order of R96. -/
theorem addgRefusesTheFirstBadRecord : Obligations.AddgRefusesTheFirstBadRecord := by
  intro s pl ld mg good r rest ha hg hr
  cases hf : s.cfg.gfields[r.fid.toNat]? with
  | none =>
    rw [exec_addg_of_badRecord ha hg (applyRecord_unknownField hf _)]
    rfl
  | some f =>
    by_cases hl : r.len.toNat = f.width
    · have hx : 2 ^ f.width ≤ beInt r.words := by simpa [recordOk, hf, hl] using hr
      rw [exec_addg_of_badRecord ha hg (applyRecord_valueRange hf hl hx _)]
      simp only [if_pos hl]
      rfl
    · rw [exec_addg_of_badRecord ha hg (applyRecord_patternLength hf hl _)]
      simp only [if_neg hl]
      rfl

/-! ### ADDP -/

theorem pixelPattern_ok {c : Config} {len : Word} (hl : len.toNat = c.pixelWidth) {ws : List Word}
    (hx : beInt ws < 2 ^ c.pixelWidth) (idx : Nat) :
    pixelPattern c idx len ws = .ok (msbVec c.pixelWidth (beInt ws)) := by
  simp [pixelPattern, hl, Nat.not_le.2 hx]

theorem pixelPattern_patternLength {c : Config} {len : Word} (hl : len.toNat ≠ c.pixelWidth) (idx : Nat)
    (ws : List Word) : pixelPattern c idx len ws = .error ⟨.patternLength, ctxOf idx, 0, len⟩ := by
  simp [pixelPattern, hl]

theorem pixelPattern_valueRange {c : Config} {len : Word} (hl : len.toNat = c.pixelWidth) {ws : List Word}
    (hx : 2 ^ c.pixelWidth ≤ beInt ws) (idx : Nat) :
    pixelPattern c idx len ws = .error ⟨.valueRange, ctxOf idx, 0, ws.headD 0⟩ := by
  simp [pixelPattern, hl, hx]

theorem exec_addp_of_pattern {s : State} {pl : Placement} (ha : builderAdmits pl s = true) {len : Word}
    {ws : List Word} {b : Bits} (hp : pixelPattern s.cfg (placeIndex pl s) len ws = .ok b) :
    exec (.addp pl len ws) s =
      .next ((s.place (placeIndex pl s) (pixelBlock s.cfg b)).succeed [numWord (placeIndex pl s)]) := by
  simp [exec, execAddp, addp, builderIndex_ok ha, hp]

theorem exec_addp_of_badPattern {s : State} {pl : Placement} (ha : builderAdmits pl s = true) {len : Word}
    {ws : List Word} {e : Err} (hp : pixelPattern s.cfg (placeIndex pl s) len ws = .error e) :
    exec (.addp pl len ws) s = .next (s.raise e) := by
  simp [exec, execAddp, addp, builderIndex_ok ha, hp]

/-- Settles O15: the pattern is the value, most significant bit first, and GSNAP stays as it is. -/
theorem addpBuildsThePixelBlock : Obligations.AddpBuildsThePixelBlock := by
  intro s pl len ws hinv ha hl hx
  refine ⟨msbVec s.cfg.pixelWidth (beInt ws), msbVec_length _ _, fun j hj => msbVec_getD _ _ j hj, ?_⟩
  rw [exec_addp_of_pattern ha (pixelPattern_ok hl hx _)]
  exact congrArg Host.Outcome.next (succeed_place hinv ha _ s.gsnap)

/-- Settles O16: the length is checked before the value. -/
theorem addpRefusesABadPattern : Obligations.AddpRefusesABadPattern := by
  intro s pl len ws ha
  constructor
  · intro hl
    rw [exec_addp_of_badPattern ha (pixelPattern_patternLength hl _ _), raise_eq]
    rfl
  · rintro w rest rfl hl hx
    rw [exec_addp_of_badPattern ha (pixelPattern_valueRange hl hx _), raise_eq]
    rfl

/-! ### ADDI -/

theorem exec_addi_of_le {s : State} {pl : Placement} (ha : builderAdmits pl s = true) {d : Word}
    (hd : d.toNat ≤ s.cfg.lInject) :
    exec (.addi pl d) s =
      .next ((s.place (placeIndex pl s) (injectBlock s.cfg d.toNat)).succeed [numWord (placeIndex pl s)]) := by
  simp [exec, execAddi, addi, builderIndex_ok ha, Nat.not_lt.2 hd]

theorem exec_addi_of_lt {s : State} {pl : Placement} (ha : builderAdmits pl s = true) {d : Word}
    (hd : s.cfg.lInject < d.toNat) :
    exec (.addi pl d) s =
      .next (s.raise ⟨.injectDelay, ctxOf (placeIndex pl s), BitVec.ofNat 8 injection, d⟩) := by
  simp [exec, execAddi, addi, builderIndex_ok ha, hd]

/-- Settles O17: the Inject block is placed, and GSNAP stays as it is. -/
theorem addiBuildsTheInjectBlock : Obligations.AddiBuildsTheInjectBlock := by
  intro s pl d hinv ha hd
  rw [exec_addi_of_le ha hd]
  exact congrArg Host.Outcome.next (succeed_place hinv ha _ s.gsnap)

/-- Settles O18: the delay is checked once the index is known. -/
theorem addiRefusesALongDelay : Obligations.AddiRefusesALongDelay := by
  intro s pl d ha hd
  rw [exec_addi_of_lt ha hd, raise_eq]
  rfl

/-! ### The base image and the shift image -/

/-- Settles O19: the field found at bit `o + j` is the one that holds it. -/
theorem baseImageOfTheFields : Obligations.BaseImageOfTheFields := by
  refine fun c hc => ⟨baseImage_length c, fun f hf j hj => ?_⟩
  have hfit := field_fits hc hf
  rw [baseImage_getD c (by omega), baseBit, fieldAt_eq hc hf (by omega) (by omega)]
  simp only [Nat.add_sub_cancel_left]
  cases f.empty <;> rfl

/-- Reversing each field twice gives the image back, for a reversal stays inside its field (R94). -/
theorem phys_phys {c : Config} (hc : c.wf = true) {img : Bits} (hl : img.length = c.globalWidth) :
    phys c (phys c img) = img := by
  refine List.ext_getElem (by rw [phys_length, hl]) fun p hp hp' => ?_
  obtain ⟨f, hf, hlo, hhi, -⟩ := fieldAt_some hc (hl ▸ hp')
  obtain ⟨j, rfl⟩ := Nat.exists_eq_add_of_le hlo
  have hj : j < f.width := by omega
  have hback : (phys c (phys c img)).getD (f.offset + j) false = img.getD (f.offset + j) false := by
    rw [phys_field hc _ hf hj, show f.offset + f.width - 1 - j = f.offset + (f.width - 1 - j) by omega,
      phys_field hc _ hf (by omega), show f.offset + f.width - 1 - (f.width - 1 - j) = f.offset + j by omega]
  rwa [← List.getElem_eq_getD, ← List.getElem_eq_getD] at hback

/-- Settles O20: bit `j` of a field's shift image is bit `k - 1 - j` of the field, which holds bit `j` of the value. -/
theorem shiftImageReversesEachField : Obligations.ShiftImageReversesEachField := by
  refine fun c img hc hl => ⟨phys_length c img, fun f hf j => phys_field hc img hf, phys_phys hc hl,
    fun f hf x hx j hj => ?_⟩
  rw [phys_field hc img hf hj, show f.offset + f.width - 1 - j = f.offset + (f.width - 1 - j) by omega,
    hx _ (by omega), show f.width - 1 - (f.width - 1 - j) = j by omega]

end Sys2Proof.Machine

/-! PROOFS. The family of spec 41_sequencing.md: COMPILE's layout of the queue and its refusals (R120 to R127), RESET
(R129), EXEC's refusals (R130), WAIT's polls (R131, R194) and the execution that never ends (R218). -/

namespace Sys2Proof.Machine

/-! ### The layout of the stream -/

theorem placeBlocks_map_snd (pos : Nat) (q : List Block) : (placeBlocks pos q).map Prod.snd = q := by
  refine List.ext_getElem? fun i => ?_
  rw [List.getElem?_map, placeBlocks_getElem?, Option.map_map]
  exact Option.map_id'

/-- The blocks that COMPILE places are those of the queue, each at R121's offset. -/
theorem placeBlocks_leadIn_getElem?_eq_some {c : Config} {q : List Block} {i st : Nat} {b : Block} :
    (placeBlocks (leadIn c q) q)[i]? = some (st, b) ↔ q[i]? = some b ∧ startOf c q i = st := by
  rw [placeBlocks_getElem?, Option.map_eq_some_iff]
  constructor
  · rintro ⟨_, hb, ⟨⟩⟩
    exact ⟨hb, rfl⟩
  · rintro ⟨hb, rfl⟩
    exact ⟨b, hb, rfl⟩

/-- Settles O22: a block's end with its gap is the next start (R121), and the starts rise up to the stream's length. -/
theorem blocksNeverOverlap : Obligations.BlocksNeverOverlap := by
  refine fun c q => ⟨placeBlocks_map_snd _ q, fun i st b hi => ?_⟩
  obtain ⟨hb, rfl⟩ := placeBlocks_leadIn_getElem?_eq_some.1 hi
  obtain ⟨hlt, -⟩ := List.getElem?_eq_some_iff.1 hb
  rw [← start_step c q i b hb]
  refine ⟨Nat.le_add_right _ _, ?_, fun j st' b' hij hj => ?_⟩
  · rw [streamLength_eq, ← start_end]
    exact start_mono c q hlt
  · obtain ⟨-, rfl⟩ := placeBlocks_leadIn_getElem?_eq_some.1 hj
    exact start_mono c q hij

/-! ### COMPILE -/

/-- COMPILE of a queue that fits succeeds: `total` is its own response word, for it is at most `TRACK_LEN` (R5, R120). -/
theorem exec_compile_of_fits {s : State} (h : Inv s) (hb : s.busy = false) (hq : s.queue ≠ [])
    (hfit : totalOf s.cfg s.queue ≤ s.cfg.trackLen) :
    exec .compile s = .next { s with
      tracks := compileTracks s.cfg s.queue s.tracks
      lenreg := BitVec.ofNat 32 (totalOf s.cfg s.queue)
      compiled := true
      rsps := s.rsps ++ [[0, BitVec.ofNat 32 (totalOf s.cfg s.queue)]] } := by
  obtain ⟨-, -, hlen, -⟩ := Config.bounds h.configured
  simp [exec, execCompile, compile, hb, State.qlen, hq, streamLength_eq, Nat.not_lt.2 hfit,
    numWord_of_lt (hfit.trans_lt hlen), State.succeed, State.respond]

theorem exec_compile_of_emptyQueue {s : State} (hb : s.busy = false) (hq : s.queue = []) :
    exec .compile s = .next (s.raise ⟨.emptyQueue, 0, noTrack, 0⟩) := by
  simp [exec, execCompile, compile, hb, State.qlen, hq]

theorem exec_compile_of_overflow {s : State} (hb : s.busy = false) (hq : s.queue ≠ [])
    (hlong : s.cfg.trackLen < totalOf s.cfg s.queue) :
    exec .compile s = .next (s.raise ⟨.streamOverflow, ctxOf s.qlen, noTrack,
      BitVec.ofNat 32 (min (totalOf s.cfg s.queue) (2 ^ 32 - 1))⟩) := by
  simp [exec, execCompile, compile, hb, State.qlen, hq, streamLength_eq, hlong]

/-- Settles O21: COMPILE succeeds, and the bits it leaves are those of the tracks it writes. -/
theorem compileLaysOutTheQueue : Obligations.CompileLaysOutTheQueue := by
  intro s hinv hb hq hfit
  obtain ⟨htracks, -⟩ := Config.bounds hinv.configured
  obtain ⟨hwf, hpatterns, helsewhere⟩ := compileTracks_bit htracks hinv.tracksWf hinv.blocksWf hfit
  refine ⟨_, hwf, exec_compile_of_fits hinv hb hq hfit, hpatterns, fun t ht hfree => ?_, fun k t hout hfree => ?_⟩
  · rw [helsewhere 4 t hfree, if_pos ⟨rfl, ht⟩]
  · rw [helsewhere k t hfree, if_neg fun ⟨hk, ht⟩ => absurd ht (Nat.not_lt.2 (hout hk))]

/-- Settles O23: COMPILE makes its two checks before it writes, the empty queue first. -/
theorem compileRefusals : Obligations.CompileRefusals := by
  refine fun s hb => ⟨fun hq => ?_, fun hq hlong => ?_⟩
  · rw [exec_compile_of_emptyQueue hb hq, raise_eq]
    rfl
  · rw [exec_compile_of_overflow hb hq hlong, raise_eq]
    rfl

/-- Settles O24: the first COMPILE leaves a state of the same queue and total, whose tracks are a compile already. -/
theorem recompileRepeatsTheStream : Obligations.RecompileRepeatsTheStream := by
  intro s t hinv hb hq hfit h
  have hinv' := exec_keeps_inv hinv .compile h
  cases (exec_compile_of_fits hinv hb hq hfit).symm.trans h
  obtain ⟨-, -, hsame⟩ := hinv'.compiledTracks rfl
  refine ⟨rfl, rfl, ?_⟩
  rw [exec_compile_of_fits hinv' hb hq hfit, hsame]

/-! ### RESET -/

/-- A mask reaches beyond the tracks when one of its bits names none of them (R129). -/
theorem maskBeyond_iff (c : Config) (m : Word) :
    maskBeyond c m = true ↔ ∃ k, c.ntracks ≤ k ∧ m.getLsbD k = true := by
  simp only [maskBeyond, List.any_eq_true, List.mem_range, Bool.and_eq_true, decide_eq_true_eq]
  constructor
  · rintro ⟨k, -, hk⟩
    exact ⟨k, hk⟩
  · rintro ⟨k, hk, hm⟩
    exact ⟨k, BitVec.lt_of_getLsbD hm, hk, hm⟩

theorem maskSelects_iff (mask : Option Word) (k : Nat) :
    maskSelects mask k = true ↔ mask = none ∨ ∃ m, mask = some m ∧ m.getLsbD k = true := by
  cases mask <;> simp [maskSelects]

/-- The bits of the selected tracks are 0 after a clear, all others as before (R42, R129). -/
theorem Memory.bit_clear (c : Config) (mask : Option Word) (m : Memory) (k t : Nat) :
    (m.clear c mask).bit k t = if maskSelects mask k then false else m.bit k t := by
  simp only [Memory.bit, Memory.clear, List.getD_eq_getElem?_getD, List.getElem?_mapIdx]
  cases m[k]? with
  | none => simp
  | some track =>
    simp only [Option.map_some, Option.getD_some]
    split
    · exact List.getElem?_getD_replicate_default_eq _ _ _
    · rfl

/-- RESET with no mask, or a mask of tracks that exist, succeeds (R129). -/
theorem exec_reset_of_legal {s : State} {mask : Option Word} (hb : s.busy = false)
    (hm : mask.any (maskBeyond s.cfg) = false) :
    exec (.reset mask) s = .next (State.succeed
      { s with tracks := s.tracks.clear s.cfg mask, queue := [], lenreg := 0, compiled := false } []) := by
  simp [exec, execReset, reset, hb, hm]

theorem exec_reset_of_beyond {s : State} {m : Word} (hb : s.busy = false) (hm : maskBeyond s.cfg m = true) :
    exec (.reset (some m)) s = .next (s.raise ⟨.badTrack, 0, noTrack, m⟩) := by
  simp [exec, execReset, reset, hb, hm]

/-- Settles O25: a mask of tracks that exist is legal, and the tracks RESET leaves are the cleared ones. -/
theorem resetClearsTheSelectedTracks : Obligations.ResetClearsTheSelectedTracks := by
  intro s mask hinv hb hmask
  have hlegal : mask.any (maskBeyond s.cfg) = false := by
    cases mask with
    | none => rfl
    | some m =>
      rw [Option.any_some, ← Bool.not_eq_true, maskBeyond_iff]
      rintro ⟨k, hk, hm⟩
      exact absurd (hmask m rfl k hm) (Nat.not_lt.2 hk)
  refine ⟨_, Memory.clear_wf hinv.tracksWf mask, exec_reset_of_legal hb hlegal, fun k t => ?_⟩
  rw [Memory.bit_clear]
  exact if_congr (maskSelects_iff mask k) rfl rfl

/-- Settles O26: a bit at or above `NTRACKS` puts the mask beyond the tracks. -/
theorem resetRefusesABadMask : Obligations.ResetRefusesABadMask := by
  intro s m k hb hk hm
  rw [exec_reset_of_beyond hb ((maskBeyond_iff _ m).2 ⟨k, hk, hm⟩), raise_eq]
  rfl

/-! ### EXEC's refusals -/

/-- The world after a failed EXEC: the transport, the FIFO and the schedule may have changed (U7, log 8, log 9). -/
theorem transportUnknown_frame (s : State) :
    ∃ xport fifo env, s.transportUnknown = { s with xport, fifo, drained := false, env } := by
  unfold State.transportUnknown State.capture
  split <;> exact ⟨_, _, _, rfl⟩

/-- What a transport call that fails leaves, when the calls up to it changed only the FIFO and the schedule (R130). -/
theorem failedCall_frame {s u : State} {fifo : List Word} {env : Env} (hu : u = { s with fifo, env })
    (k : BitVec 16) (v : Word) {t : State} (ht : t = u.transportUnknown.raise ⟨.transportError, k, noTrack, v⟩) :
    t = { s with xport := t.xport, fifo := t.fifo, drained := t.drained, env := t.env,
                 rsps := s.rsps ++ [[k ++ 0xFF22#16, v]] } := by
  obtain ⟨x, f, e, hx⟩ := transportUnknown_frame u
  rw [hx, hu, State.raise, words_transportError] at ht
  subst ht
  rfl

section

variable {s : State} (rep : BitVec 16) (hb : s.busy = false)
include hb

theorem exec_exec_of_notCompiled (hc : s.compiled = false) :
    exec (.exec rep) s = .next (s.raise ⟨.notCompiled, ctxOf s.qlen, noTrack, 0⟩) := by
  simp [exec, execExec, execStream, hb, hc]

variable (hc : s.compiled = true)
include hc

theorem exec_exec_of_loadFails (h1 : answerFailed s.portCall.1 = true) :
    exec (.exec rep) s = .next (s.portCall.2.transportUnknown.raise ⟨.transportError, 1, noTrack, 0⟩) := by
  simp [exec, execExec, execStream, hb, hc, h1]

theorem exec_exec_of_countFails (h1 : answerFailed s.portCall.1 = false)
    (h2 : answerFailed s.portCall.2.portCall.1 = true) :
    exec (.exec rep) s =
      .next (s.portCall.2.portCall.2.transportUnknown.raise ⟨.transportError, 2, noTrack, rep.setWidth 32⟩) := by
  simp [exec, execExec, execStream, hb, hc, h1, h2]

theorem exec_exec_of_startFails (h1 : answerFailed s.portCall.1 = false)
    (h2 : answerFailed s.portCall.2.portCall.1 = false) (h3 : answerFailed s.portCall.2.portCall.2.portCall.1 = true) :
    exec (.exec rep) s =
      .next (s.portCall.2.portCall.2.portCall.2.transportUnknown.raise ⟨.transportError, 3, noTrack, 0⟩) := by
  simp [exec, execExec, execStream, hb, hc, h1, h2, h3]

end

/-- Settles O28: each call before the one that fails changed only the FIFO and the schedule. -/
theorem execRefusals : Obligations.ExecRefusals := by
  intro s rep hb
  obtain ⟨_, _, hload, -⟩ := portCall_frame s
  obtain ⟨_, _, hcount, -⟩ := portCall_twice s
  obtain ⟨_, _, hstart, -⟩ := portCall_thrice s
  refine ⟨fun hc => ?_, fun hc h1 => ?_, fun hc h1 h2 => ?_, fun hc h1 h2 h3 => ?_⟩
  · rw [exec_exec_of_notCompiled rep hb hc, raise_eq]
    rfl
  · exact ⟨_, exec_exec_of_loadFails rep hb hc h1, failedCall_frame hload 1 0 rfl⟩
  · exact ⟨_, exec_exec_of_countFails rep hb hc h1 h2, failedCall_frame hcount 2 _ rfl⟩
  · exact ⟨_, exec_exec_of_startFails rep hb hc h1 h2 h3, failedCall_frame hstart 3 0 rfl⟩

/-! ### WAIT -/

theorem exec_wait_zero (s : State) : exec (.wait 0) s = .next (s.raise ⟨.badTimeout, 0, noTrack, 0⟩) := rfl

/-- With BUSY 0 there is nothing to wait for (R131). -/
theorem exec_wait_of_idle {s : State} {n : Word} (hn : n ≠ 0) (hb : s.busy = false) :
    exec (.wait n) s = .next (s.succeed [0]) := by
  rw [exec, execWait, wait, if_neg hn, if_pos hb]

/-- With BUSY 1 WAIT is its poll loop, from poll 1 on (R131). -/
theorem exec_wait_of_busy {s : State} {n : Word} (hn : n ≠ 0) (hb : s.busy = true) :
    exec (.wait n) s = .next (pollLoop n n.toNat 1 s) := by
  rw [exec, execWait, wait, if_neg hn, if_neg (by simp [hb])]

/-- The number of a poll that NPOLL allows is its own response word. -/
theorem numWord_poll {n : Word} {i : Nat} (h : i < n.toNat) : numWord (1 + i) = BitVec.ofNat 32 (i + 1) := by
  rw [Nat.add_comm, numWord_of_lt (by have := n.isLt; omega)]

theorem ne_zero_of_lt_toNat {n : Word} {i : Nat} (h : i < n.toNat) : n ≠ 0 := by
  rintro rfl
  exact absurd h (Nat.not_lt_zero i)

/-- Settles O29: WAIT looks at NPOLL and then at BUSY before it polls. -/
theorem waitWithoutAPoll : Obligations.WaitWithoutAPoll := by
  refine ⟨fun s => ?_, fun s n hn hb => exec_wait_of_idle hn hb⟩
  rw [exec_wait_zero, raise_eq]
  rfl

/-- Settles O30: the poll loop of an execution that finishes at poll `k + 1`. -/
theorem waitSeesTheExecutionFinish : Obligations.WaitSeesTheExecutionFinish := by
  intro s n k hb hp hk hpolls
  obtain ⟨ws, env, hloop⟩ := pollLoop_finish n k n.toNat 1 s hp hk hpolls
  rw [numWord_poll hk] at hloop
  exact ⟨_, ws, (exec_wait_of_busy (ne_zero_of_lt_toNat hk) hb).trans (congrArg _ hloop), rfl⟩

/-- Settles O31: the poll loop of a finite execution that outlasts it, and of an endless one. -/
theorem waitTimesOut : Obligations.WaitTimesOut := by
  intro s n hn hb hpolls
  refine ⟨fun k hp hk => ?_, fun hp => ?_⟩
  · obtain ⟨ws, env, hloop⟩ := pollLoop_timeout n n.toNat k 1 s hp hk hpolls
    exact ⟨_, ws, (exec_wait_of_busy hn hb).trans (congrArg _ hloop), rfl⟩
  · obtain ⟨ws, env, hloop⟩ := pollLoop_endless n n.toNat 1 s hp hpolls
    exact ⟨_, ws, (exec_wait_of_busy hn hb).trans (congrArg _ hloop), rfl⟩

/-- Settles O32: the poll loop that ends at its first failed poll. -/
theorem waitReportsAFailedPoll : Obligations.WaitReportsAFailedPoll := by
  intro s n i hb hi hp hpolls hfails
  obtain ⟨ph, ws, env, hloop⟩ := pollLoop_failed n i n.toNat 1 s hp hi hpolls hfails
  rw [numWord_poll hi] at hloop
  exact ⟨_, (exec_wait_of_busy (ne_zero_of_lt_toNat hi) hb).trans (congrArg _ hloop), rfl⟩

/-! ### The execution that never ends -/

/-- What a step that answers a next state can do: nothing, or take a packet and refuse it or run it (R30, R77). -/
theorem step_cases {s t : State} (h : step s = .next t) :
    t = s ∨ ∃ cmds, (∃ e, t = State.raise { s with cmds } e) ∨ ∃ i, exec i { s with cmds } = .next t := by
  cases hc : s.cfg.wf with
  | false => cases (step_of_badConfiguration hc).symm.trans h
  | true =>
    cases hcmds : s.cmds with
    | nil =>
      cases (step_of_noPacket hc hcmds).symm.trans h
      exact .inl rfl
    | cons p rest =>
      cases hd : decode p with
      | error e =>
        cases (step_of_illegal hc hcmds hd).symm.trans h
        exact .inr ⟨rest, .inl ⟨_, rfl⟩⟩
      | ok i => exact .inr ⟨rest, .inr ⟨i, (step_of_command hc hcmds hd).symm.trans h⟩⟩

/-- WAIT on an endless execution ends in an error, and the transport plays on (R131, R218). -/
theorem wait_endless_frame (npoll : Word) {s : State} (hb : s.busy = true) (hp : s.xport.phase = .endless) :
    ∃ fifo env rsps, wait npoll s = { s with fifo, env, rsps } := by
  rcases wait_cases npoll s with ⟨e, ph, ws, v, he, -, -, -, hplays⟩ | ⟨hidle, -⟩ | ⟨-, hends, -⟩
  · obtain ⟨-, hforever⟩ := hplays (by rw [hp]; rfl)
    cases (hforever.2 hp).trans hp.symm
    exact ⟨_, _, _, he⟩
  · cases hidle.symm.trans hb
  · exact absurd hp hends

/-- While an endless execution runs, a command changes nothing but the FIFO, the schedule and the responses (R186,
R218). -/
theorem exec_endless_frame {i : Instr} {s t : State} (hb : s.busy = true) (hp : s.xport.phase = .endless)
    (h : exec i s = .next t) : ∃ fifo env rsps, t = { s with fifo, env, rsps } := by
  by_cases hi : busyRefuses i = true
  · cases (exec_of_busyRefuses hb hi).symm.trans h
    exact ⟨_, _, _, rfl⟩
  · cases i with
    | wait npoll =>
      cases h
      exact wait_endless_frame npoll hb hp
    | status =>
      cases h
      exact ⟨_, _, _, rfl⟩
    | rdtrk trk start count =>
      obtain ⟨rsps, hrdtrk⟩ := rdtrk_frame trk start count s
      cases h
      exact ⟨_, _, rsps, hrdtrk⟩
    | _ => exact absurd rfl hi

/-- Settles O33: neither the refusal of a packet nor a command touches `S` or the transport. -/
theorem endlessExecutionKeepsBusy : Obligations.EndlessExecutionKeepsBusy := by
  intro s t hb hp h
  rcases step_cases h with rfl | ⟨cmds, ⟨e, rfl⟩ | ⟨i, hi⟩⟩
  · exact ⟨hb, hp, rfl⟩
  · exact ⟨hb, hp, rfl⟩
  · obtain ⟨fifo, env, rsps, rfl⟩ := exec_endless_frame (s := { s with cmds }) hb hp hi
    exact ⟨hb, hp, rfl⟩

end Sys2Proof.Machine

/-! PROOFS. The family of spec 42_readout.md: DECODE's bits and response words (R150 to R155), the refusals of DECODE,
RSTOUT (R157), and the FIFO that stays empty from an RSTOUT to the next EXEC (R197). -/

namespace Sys2Proof.Machine

/-! ### DECODE completes -/

/-- DECODE of an unread FIFO whose count and read complete answers the words that the count found (R151). -/
theorem exec_decode_of_read {s : State} {rd : List Word} (inv : Bool) (hb : s.busy = false) (hc : s.consumed = false)
    (hcount : answerFailed s.portCall.1 = false)
    (hread : answerWords s.portCall.2.portCall.2.fifo s.portCall.2.portCall.1 = some rd)
    (hlen : s.portCall.2.fifo.length ≤ rd.length) :
    exec (.decode inv) s = .next (State.succeed { s.portCall.2.portCall.2 with consumed := true }
      (numWord (16 * s.portCall.2.fifo.length) :: pack32 (deserialize inv s.portCall.2.fifo))) := by
  simp [exec, execDecode, decodeFifo, hb, hc, hcount, hread, Nat.not_lt.2 hlen, answerWords_take hread hlen]

/-- Settles O35: the decoded bits are those of the words at the count, and the two calls change only the FIFO and the
schedule. -/
theorem decodeAnswersTheFifoBits : Obligations.DecodeAnswersTheFifoBits := by
  rintro s inv hb hc hcount ⟨rd, hread, hlen⟩
  obtain ⟨ws, env, hcalls, hquiet, -⟩ := portCall_twice s
  have hexec := exec_decode_of_read inv hb hc hcount hread hlen
  rw [hcalls] at hexec
  exact ⟨_, ws, _, _, hexec, rfl, fun hq => ⟨hquiet hq, portCall_fifo_of_quiet hq⟩, numWord_of_lt,
    deserialize_length inv _, fun i hi j hj => deserialize_getD inv _ i j hi hj⟩

/-! ### The response words of DECODE -/

/-- Halfword `i` of DECODE's data: the low half of word `i`, complemented when `INV = 1`, and 0 past the last word
whatever `INV` (R152, R155). -/
def dataHalf (inv : Bool) (words : List Word) (i : Nat) : BitVec 16 :=
  if i < words.length then
    if inv then ~~~ (words.getD i 0).setWidth 16 else (words.getD i 0).setWidth 16
  else 0#16

/-- The sixteen bits from `16 i` on are halfword `i`, most significant bit first (R151, R155). -/
theorem deserialize_getD_dataHalf (inv : Bool) (words : List Word) (i : Nat) {j : Nat} (hj : j < 16) :
    (deserialize inv words).getD (16 * i + j) false = (dataHalf inv words i).getLsbD (15 - j) := by
  unfold dataHalf
  split
  next hi =>
    have hbit : 15 - j < 16 := by omega
    rw [deserialize_getD inv words i j hi hj]
    cases inv <;> simp [hbit]
  next hi =>
    rw [List.getD_eq_default _ _ (by rw [deserialize_length]; omega), BitVec.getLsbD_zero]

/-- A packed word is two halves whose bits are the vector's (R9). -/
theorem packWord_eq_append {v : Bits} {half : Nat → BitVec 16}
    (hv : ∀ i j, j < 16 → v.getD (16 * i + j) false = (half i).getLsbD (15 - j)) (m : Nat) :
    packWord v m = half (2 * m) ++ half (2 * m + 1) := by
  refine BitVec.eq_of_getLsbD_eq fun k hk => ?_
  have hbit := packWord_getLsbD v m (31 - k) (by omega)
  rw [show 31 - (31 - k) = k by omega] at hbit
  rw [hbit, BitVec.getLsbD_append]
  split
  next hlow =>
    rw [show 32 * m + (31 - k) = 16 * (2 * m + 1) + (15 - k) by omega, hv _ _ (by omega)]
    congr 1
    omega
  next hhigh =>
    rw [show 32 * m + (31 - k) = 16 * (2 * m) + (31 - k) by omega, hv _ _ (by omega)]
    congr 1
    omega

/-- Settles O36: the data are the decoded bits packed, and each packed word is two of their halfwords. -/
theorem decodeResponseWords : Obligations.DecodeResponseWords := by
  rintro s inv hb hc hcount ⟨rd, hread, hlen⟩ words hfits
  have hdata : (pack32 (deserialize inv words)).length = ceil32 (16 * words.length) := by
    rw [pack32_length, deserialize_length]
  refine ⟨_, pack32 (deserialize inv words), exec_decode_of_read inv hb hc hcount hread hlen, ?_, hdata,
    fun m hm => ?_⟩
  · simp [numWord_of_lt hfits, words]
  · rw [pack32_getD _ m (by rwa [← pack32_length])]
    exact packWord_eq_append (half := dataHalf inv words)
      (fun i j hj => deserialize_getD_dataHalf inv words i hj) m

/-! ### DECODE's refusals -/

section

variable {s : State} (inv : Bool) (hb : s.busy = false)
include hb

theorem exec_decode_of_consumed (hc : s.consumed = true) :
    exec (.decode inv) s = .next (s.raise ⟨.readoutConsumed, 0, noTrack, 0⟩) := by
  simp [exec, execDecode, decodeFifo, hb, hc]

variable (hc : s.consumed = false)
include hc

theorem exec_decode_of_countFails (hcount : answerFailed s.portCall.1 = true) :
    exec (.decode inv) s = .next (s.portCall.2.raise ⟨.fifoRead, 1, noTrack, 0⟩) := by
  simp [exec, execDecode, decodeFifo, hb, hc, hcount]

/-- A read that fails, or answers fewer words than the count found, is refused with that count (R151). -/
theorem exec_decode_of_shortRead (hcount : answerFailed s.portCall.1 = false)
    (hshort : ∀ rd, answerWords s.portCall.2.portCall.2.fifo s.portCall.2.portCall.1 = some rd →
      rd.length < s.portCall.2.fifo.length) :
    exec (.decode inv) s =
      .next (s.portCall.2.portCall.2.raise ⟨.fifoRead, 2, noTrack, numWord s.portCall.2.fifo.length⟩) := by
  cases hread : answerWords s.portCall.2.portCall.2.fifo s.portCall.2.portCall.1 with
  | none => simp [exec, execDecode, decodeFifo, hb, hc, hcount, hread]
  | some rd => simp [exec, execDecode, decodeFifo, hb, hc, hcount, hread, hshort rd hread]

end

/-- Settles O37: DECODE looks at CONSUMED, then at the count, then at the read; the calls change only the FIFO and the
schedule. -/
theorem decodeRefusals : Obligations.DecodeRefusals := by
  intro s inv hb
  refine ⟨fun hc => ?_, fun hc hcount => ?_, fun hc hcount hfits hshort => ?_⟩
  · rw [exec_decode_of_consumed inv hb hc, raise_eq]
    rfl
  · obtain ⟨ws, env, hcall, hquiet⟩ := portCall_frame s
    rw [exec_decode_of_countFails inv hb hc hcount, hcall, raise_eq]
    exact ⟨_, ws, rfl, hquiet, rfl⟩
  · obtain ⟨ws, env, hcalls, hquiet, -⟩ := portCall_twice s
    rw [exec_decode_of_shortRead inv hb hc hcount hshort, hcalls, raise_eq, numWord_of_lt hfits]
    exact ⟨_, ws, rfl, hquiet, rfl⟩

/-! ### RSTOUT -/

section

variable {s : State} (hb : s.busy = false)
include hb

theorem exec_rstout_of_completed (hcall : answerFailed s.portCall.1 = false) :
    exec .rstout s =
      .next (State.succeed { s.portCall.2 with fifo := [], consumed := false, drained := true } []) := by
  simp [exec, execRstout, rstout, hb, hcall]

theorem exec_rstout_of_fails (hcall : answerFailed s.portCall.1 = true) :
    exec .rstout s = .next (s.portCall.2.raise ⟨.fifoRead, 3, noTrack, 0⟩) := by
  simp [exec, execRstout, rstout, hb, hcall]

end

/-- Settles O38: the call changes only the FIFO and the schedule, and RSTOUT then empties the FIFO if it ended well. -/
theorem rstoutEmptiesTheFifo : Obligations.RstoutEmptiesTheFifo := by
  intro s hb
  obtain ⟨ws, env, hframe, hquiet⟩ := portCall_frame s
  refine ⟨fun hcall => ?_, fun hcall => ?_⟩
  · rw [exec_rstout_of_completed hb hcall, hframe]
    exact ⟨_, rfl, rfl⟩
  · rw [exec_rstout_of_fails hb hcall, hframe, raise_eq]
    exact ⟨_, ws, rfl, hquiet, rfl⟩

/-! ### The FIFO from an RSTOUT to the next EXEC -/

/-- The FIFO is empty, and no words can reach it (R197, log 8). -/
def FifoEmptyAndQuiet (s : State) : Prop := s.fifo = [] ∧ s.fifoQuiet = true

/-- A quiet FIFO stays quiet through WAIT's polls: `drained` stays, and so does a transport that plays nothing (R131,
R194). -/
theorem PollsDone.keeps_quiet {s : State} {ph : Phase} {ws : List Word} (h : PollsDone s ph ws)
    (hq : s.fifoQuiet = true) : (s.drained || !phasePlaying ph) = true := by
  rcases (fifoQuiet_iff s).1 hq with hidle | hdrained
  · simp [h.idle hidle, hidle]
  · simp [hdrained]

theorem wait_keeps_fifoEmptyAndQuiet (npoll : Word) {s : State} (h : FifoEmptyAndQuiet s) :
    FifoEmptyAndQuiet (wait npoll s) := by
  obtain ⟨hf, hq⟩ := h
  rcases wait_cases npoll s with
    ⟨e, ph, ws, v, he, -, -, hpolls, -⟩ | ⟨-, he⟩ | ⟨-, -, k, ph, ws, v, hpolls, he⟩ <;> rw [he]
  · exact ⟨by simp [hf, hpolls.quiet hq], hpolls.keeps_quiet hq⟩
  · exact ⟨hf, hq⟩
  · exact ⟨by simp [hf, hpolls.quiet hq], hpolls.keeps_quiet hq⟩

theorem decodeFifo_keeps_fifoEmptyAndQuiet (inv : Bool) {s : State} (h : FifoEmptyAndQuiet s) :
    FifoEmptyAndQuiet (decodeFifo inv s) := by
  obtain ⟨hf, hq⟩ := h
  rcases decodeFifo_cases inv s with ⟨e, ws, v, he, hquiet⟩ | ⟨-, -, -, rd, ws, v, -, -, hquiet, he⟩ <;> rw [he] <;>
    exact ⟨by simp [hf, hquiet hq], hq⟩

theorem rstout_keeps_fifoEmptyAndQuiet {s : State} (h : FifoEmptyAndQuiet s) : FifoEmptyAndQuiet (rstout s) := by
  obtain ⟨hf, hq⟩ := h
  rcases rstout_cases s with ⟨e, ws, v, he, hquiet⟩ | ⟨-, -, v, he⟩ <;> rw [he]
  · exact ⟨by simp [hf, hquiet hq], hq⟩
  · exact ⟨rfl, rfl⟩

/-- Every command but EXEC leaves an empty and quiet FIFO so: of these, only WAIT, DECODE and RSTOUT write the FIFO, the
transport or `drained` at all (R197). -/
theorem exec_keeps_fifoEmptyAndQuiet {i : Instr} {s t : State} (h : FifoEmptyAndQuiet s) (hi : ∀ rep, i ≠ .exec rep)
    (ht : exec i s = .next t) : FifoEmptyAndQuiet t := by
  obtain ⟨-, -, -, -, -, -, -, -, -, -, -, -, hxport, hfifo, hdrained⟩ := onlyNamedCommandsWriteEachElement i s t ht
  cases i with
  | exec rep => exact absurd rfl (hi rep)
  | wait npoll => cases ht; exact wait_keeps_fifoEmptyAndQuiet npoll h
  | decode inv => cases ht; exact decodeFifo_keeps_fifoEmptyAndQuiet inv h
  | rstout => cases ht; exact rstout_keeps_fifoEmptyAndQuiet h
  | _ =>
    simp only [reduceCtorEq, exists_false, or_self, imp_false, not_not] at hxport hfifo hdrained
    rwa [FifoEmptyAndQuiet, State.fifoQuiet, hxport, hfifo, hdrained]

/-- So does a run of commands without an EXEC. -/
theorem runCommands_keeps_fifoEmptyAndQuiet {is : List Instr} {s u : State} (h : FifoEmptyAndQuiet s)
    (his : ∀ i ∈ is, ∀ rep, i ≠ .exec rep) (hu : runCommands is s = .next u) : FifoEmptyAndQuiet u := by
  induction is generalizing s with
  | nil => cases hu; exact h
  | cons i is ih =>
    obtain ⟨hi, his⟩ := List.forall_mem_cons.1 his
    rw [runCommands] at hu
    split at hu
    next t ht => exact ih (exec_keeps_fifoEmptyAndQuiet h hi ht) his hu
    next => cases hu
    next => cases hu

/-- Settles O39: RSTOUT leaves the FIFO empty and quiet, and every command but EXEC keeps it so. -/
theorem fifoStaysEmptyUntilExec : Obligations.FifoStaysEmptyUntilExec := by
  refine ⟨fun s t u is hb hcall ht his hu => ?_, fun i s t hf hq hi ht => exec_keeps_fifoEmptyAndQuiet ⟨hf, hq⟩ hi ht⟩
  have hempty : FifoEmptyAndQuiet t := by
    cases (exec_rstout_of_completed hb hcall).symm.trans ht
    exact ⟨rfl, rfl⟩
  obtain ⟨hf, -⟩ := runCommands_keeps_fifoEmptyAndQuiet hempty his hu
  exact hf

end Sys2Proof.Machine

/-! PROOFS. The family of spec 43_query.md: RDTRK's data words and its two refusals (R171). -/

namespace Sys2Proof.Machine

/-! ### RDTRK -/

section

variable {s : State} {trk : BitVec 5} {start count : Word}

theorem exec_rdtrk_of_noTrack (htrk : s.cfg.ntracks ≤ trk.toNat) :
    exec (.rdtrk trk start count) s = .next (s.raise ⟨.badTrack, 0, trk.setWidth 8, trk.setWidth 32⟩) := by
  simp [exec, execRdtrk, rdtrk, htrk]

variable (htrk : trk.toNat < s.cfg.ntracks)
include htrk

theorem exec_rdtrk_of_beyond (hrange : s.cfg.trackLen < start.toNat + count.toNat) :
    exec (.rdtrk trk start count) s = .next (s.raise ⟨.rangeError, 0, trk.setWidth 8, start⟩) := by
  simp [exec, execRdtrk, rdtrk, Nat.not_le.2 htrk, hrange]

theorem exec_rdtrk_of_inside (hrange : start.toNat + count.toNat ≤ s.cfg.trackLen) :
    exec (.rdtrk trk start count) s =
      .next (s.succeed (pack32 (s.tracks.read trk.toNat start.toNat count.toNat))) := by
  simp [exec, execRdtrk, rdtrk, Nat.not_le.2 htrk, Nat.not_lt.2 hrange]

end

/-- Bit `31 - j` of data word `m` of a read is the track's bit `32 m + j` past the read's start, and 0 past the read's
length (R9, R42). -/
theorem pack32_read_getLsbD (tracks : Memory) (k t n : Nat) {m j : Nat} (hm : m < (pack32 (tracks.read k t n)).length)
    (hj : j < 32) :
    ((pack32 (tracks.read k t n)).getD m 0).getLsbD (31 - j) =
      if 32 * m + j < n then tracks.bit k (t + 32 * m + j) else false := by
  rw [pack32_length] at hm
  rw [pack32_getD _ m hm, packWord_getLsbD _ m j hj, Memory.read_getD, Nat.add_assoc]

/-- Settles O42: the data are the bits of the range packed, and a range inside a track has COUNT bits. -/
theorem rdtrkAnswersTheRange : Obligations.RdtrkAnswersTheRange := by
  intro s trk start count hwf htrk hrange
  have hlen := Memory.read_length hwf trk.toNat start.toNat count.toNat htrk hrange
  exact ⟨_, exec_rdtrk_of_inside htrk hrange, by rw [pack32_length, hlen],
    fun _ hm _ hj => pack32_read_getLsbD s.tracks trk.toNat start.toNat count.toNat hm hj⟩

/-- Settles O43: RDTRK checks the track before the range, whose end it does not wrap. -/
theorem rdtrkRefusals : Obligations.RdtrkRefusals :=
  fun _ _ _ _ => ⟨exec_rdtrk_of_noTrack, exec_rdtrk_of_beyond⟩

end Sys2Proof.Machine

/-! PROOFS. The family of spec 60_exceptions.md: the one response of every packet (R184), the error that leaves `S`
unchanged (R185) and the commands that BUSY refuses (R186). -/

namespace Sys2Proof.Machine

/-! ### Error responses -/

theorem words_execBusy (ctx : BitVec 16) (v : Word) :
    Err.words ⟨.execBusy, ctx, noTrack, v⟩ = [ctx ++ 0xFF12#16, v] := by
  rw [words_noTrack]; congr 1
  rw [BitVec.append_assoc]; rfl

/-- No other error has the code of `ExecBusy` (R182). -/
theorem ErrCode.eq_execBusy_of_code {c : ErrCode} : c.code = 0x12#8 → c = .execBusy := by
  cases c <;> decide

/-- An error response tells its code: the low byte of its first word (R182, R184). -/
theorem Err.code_eq_of_words_eq {e f : Err} (h : e.words = f.words) : e.code.code = f.code.code := by
  obtain ⟨hfirst, -⟩ := List.cons.inj h
  calc e.code.code = (e.ctx ++ e.trk ++ e.code.code).setWidth 8 := BitVec.setWidth_append_eq_right.symm
    _ = (f.ctx ++ f.trk ++ f.code.code).setWidth 8 := congrArg (BitVec.setWidth 8) hfirst
    _ = f.code.code := BitVec.setWidth_append_eq_right

/-! ### How a command answers -/

/-- How the command `i`, which takes `s` to `t`, answers: with an error, which changes nothing of `S` and is `ExecBusy`
only for a command that BUSY refuses, or with the status word 0 and its result words (R184 to R186). -/
inductive Answers (i : Instr) (s t : State) : Prop where
  | error (e : Err) (response : t.rsps = s.rsps ++ [e.words]) (unchanged : t.tuple = s.tuple)
      (refusal : e.code = .execBusy → busyRefuses i = true)
  | success (results : List Word) (response : t.rsps = s.rsps ++ [0 :: results])
      (count : s.tracks.wf s.cfg = true → results.length = resultCount s i)

theorem addg_answers (pl : Placement) (ld mg : Bool) (rs : List FieldRecord) (s : State) :
    Answers (.addg pl ld mg rs) s (addg pl ld mg rs s) := by
  rcases addg_cases pl ld mg rs s with ⟨e, he⟩ | ⟨idx, img, -, -, he⟩ <;> rw [he]
  · exact .error e rfl rfl fun _ => rfl
  · exact .success _ rfl fun _ => rfl

theorem addp_answers (pl : Placement) (len : Word) (ws : List Word) (s : State) :
    Answers (.addp pl len ws) s (addp pl len ws s) := by
  rcases addp_cases pl len ws s with ⟨e, he⟩ | ⟨idx, b, -, -, he⟩ <;> rw [he]
  · exact .error e rfl rfl fun _ => rfl
  · exact .success _ rfl fun _ => rfl

theorem addi_answers (pl : Placement) (d : Word) (s : State) : Answers (.addi pl d) s (addi pl d s) := by
  rcases addi_cases pl d s with ⟨e, he⟩ | ⟨idx, -, -, he⟩ <;> rw [he]
  · exact .error e rfl rfl fun _ => rfl
  · exact .success _ rfl fun _ => rfl

theorem compile_answers (s : State) : Answers .compile s (compile s) := by
  rcases compile_cases s with ⟨e, he⟩ | ⟨-, -, -, he⟩ <;> rw [he]
  · exact .error e rfl rfl fun _ => rfl
  · exact .success _ rfl fun _ => rfl

theorem reset_answers (mask : Option Word) (s : State) : Answers (.reset mask) s (reset mask s) := by
  rcases reset_cases mask s with ⟨e, he⟩ | ⟨-, -, he⟩ <;> rw [he]
  · exact .error e rfl rfl fun _ => rfl
  · exact .success _ rfl fun _ => rfl

/-- The start of the transport sends no response of its own. -/
theorem execStream_answers (rep : BitVec 16) (s : State) : Answers (.exec rep) s (execStream rep s) := by
  rcases execStream_cases rep s with ⟨e, x, f, d, v, he, -⟩ | ⟨-, -, -, -, -, ws, v, -, he⟩ <;> rw [he]
  · exact .error e rfl rfl fun _ => rfl
  · exact .success [] (by simp) fun _ => rfl

/-- No error of WAIT's poll loop is `ExecBusy` (R131, R186). -/
theorem wait_answers (npoll : Word) (s : State) : Answers (.wait npoll) s (wait npoll s) := by
  rcases wait_cases npoll s with ⟨e, ph, ws, v, he, hcode, -⟩ | ⟨-, he⟩ | ⟨-, -, k, ph, ws, v, -, he⟩ <;> rw [he]
  · exact .error e rfl rfl fun h => absurd h hcode
  · exact .success _ rfl fun _ => rfl
  · exact .success _ rfl fun _ => rfl

/-- DECODE answers the number of bits and, packed, 16 bits for each word that was in the FIFO at the count (R151). -/
theorem decodeFifo_answers (inv : Bool) (s : State) : Answers (.decode inv) s (decodeFifo inv s) := by
  rcases decodeFifo_cases inv s with ⟨e, ws, v, he, -⟩ | ⟨-, -, -, rd, ws, v, hread, hlen, -, he⟩ <;> rw [he]
  · exact .error e rfl rfl fun _ => rfl
  · refine .success _ rfl fun _ => ?_
    rw [answerWords_take hread hlen, List.length_cons, pack32_length, deserialize_length, Nat.add_comm]
    rfl

theorem rstout_answers (s : State) : Answers .rstout s (rstout s) := by
  rcases rstout_cases s with ⟨e, ws, v, he, -⟩ | ⟨-, -, v, he⟩ <;> rw [he]
  · exact .error e rfl rfl fun _ => rfl
  · exact .success _ rfl fun _ => rfl

theorem status_answers (s : State) : Answers .status s (status s) := .success _ rfl fun _ => rfl

/-- RDTRK's range lies inside a track, so COUNT bits are read (R42, R171). -/
theorem rdtrk_answers (trk : BitVec 5) (start count : Word) (s : State) :
    Answers (.rdtrk trk start count) s (rdtrk trk start count s) := by
  rcases rdtrk_cases trk start count s with ⟨e, he, hcode⟩ | ⟨htrk, hrange, he⟩ <;> rw [he]
  · exact .error e rfl rfl fun h => absurd h hcode
  · refine .success _ rfl fun hwf => ?_
    rw [pack32_length, Memory.read_length hwf _ _ _ htrk hrange]
    rfl

/-- Every command answers a next state, with one response more (R184, R189). -/
theorem exec_answers (s : State) : ∀ i : Instr, ∃ t, exec i s = .next t ∧ Answers i s t
  | .addg pl ld mg rs => ⟨_, rfl, addg_answers pl ld mg rs s⟩
  | .addp pl len ws => ⟨_, rfl, addp_answers pl len ws s⟩
  | .addi pl d => ⟨_, rfl, addi_answers pl d s⟩
  | .compile => ⟨_, rfl, compile_answers s⟩
  | .reset mask => ⟨_, rfl, reset_answers mask s⟩
  | .exec rep => ⟨_, rfl, execStream_answers rep s⟩
  | .wait npoll => ⟨_, rfl, wait_answers npoll s⟩
  | .decode inv => ⟨_, rfl, decodeFifo_answers inv s⟩
  | .rstout => ⟨_, rfl, rstout_answers s⟩
  | .status => ⟨_, rfl, status_answers s⟩
  | .rdtrk trk start count => ⟨_, rfl, rdtrk_answers trk start count s⟩

theorem answers_of_exec {i : Instr} {s t : State} (h : exec i s = .next t) : Answers i s t := by
  obtain ⟨u, hu, hanswers⟩ := exec_answers s i
  cases hu.symm.trans h
  exact hanswers

/-- A command whose answer is an error's has left `S` as it was, and the error is `ExecBusy` only where BUSY refuses the
command: an error's response is no success's, and it tells its code (R184 to R186). -/
theorem Answers.of_error_words {i : Instr} {s t : State} {e : Err} (h : Answers i s t)
    (he : t.rsps = s.rsps ++ [e.words]) : t.tuple = s.tuple ∧ (e.code = .execBusy → busyRefuses i = true) := by
  cases h with
  | error f hresponse hunchanged hrefusal =>
    rw [hresponse, List.append_right_inj, List.singleton_inj] at he
    refine ⟨hunchanged, fun hbusy => hrefusal (ErrCode.eq_execBusy_of_code ?_)⟩
    rw [Err.code_eq_of_words_eq he, hbusy]
    rfl
  | success results hresponse _ =>
    rw [hresponse, List.append_right_inj, List.singleton_inj] at he
    exact absurd he.symm (e.words_ne_success results)

/-! ### The response, the error and BUSY -/

/-- How many result words a command has does not depend on the packets that wait. -/
theorem resultCount_cmds (s : State) (cmds : List Packet) (i : Instr) :
    resultCount { s with cmds } i = resultCount s i := by
  cases i with
  | decode inv => simp only [resultCount, portCall_fifo_cmds]
  | _ => rfl

/-- Settles O8: a packet that is no command is answered with `IllegalCommand`, and every other one by its command. -/
theorem everyPacketGetsOneResponse : Obligations.EveryPacketGetsOneResponse := by
  intro s p rest hinv hcmds
  cases hd : decode p with
  | error e =>
    have hcode := (illegal p.header).code.code_ne_zero
    exact ⟨_, _, step_of_illegal hinv.configured hcmds hd, rfl, rfl, .inl ⟨illegal p.header, hcode, rfl⟩⟩
  | ok i =>
    obtain ⟨t, ht, hanswers⟩ := exec_answers { s with cmds := rest } i
    obtain ⟨-, htaken, -⟩ := onlyNamedCommandsWriteEachElement i _ t ht
    have hstep := (step_of_command hinv.configured hcmds hd).trans ht
    cases hanswers with
    | error e hresponse _ _ => exact ⟨t, _, hstep, htaken, hresponse, .inl ⟨e, e.code.code_ne_zero, rfl⟩⟩
    | success results hresponse hcount =>
      have hlength := (hcount hinv.tracksWf).trans (resultCount_cmds s rest i)
      exact ⟨t, _, hstep, htaken, hresponse, .inr ⟨i, results, rfl, rfl, hlength⟩⟩

/-- Settles O9: every command answers, and an answer that is an error's leaves `S`. -/
theorem errorLeavesTheStateUnchanged : Obligations.ErrorLeavesTheStateUnchanged := by
  intro i s t e ht he
  obtain ⟨hunchanged, -⟩ := (answers_of_exec ht).of_error_words he
  exact hunchanged

/-- Settles O11: a response of this form is `ExecBusy`'s, which no command sends but those that BUSY refuses. -/
theorem busyRefusesEightCommands : Obligations.BusyRefusesEightCommands := by
  refine ⟨fun i s hb hi => ?_, fun i s t ctx val hi ht hbusy => ?_⟩
  · rw [exec_of_busyRefuses hb hi, busyErr, State.raise, words_execBusy]
    rfl
  · rw [← words_execBusy] at hbusy
    obtain ⟨-, hrefusal⟩ := (answers_of_exec ht).of_error_words hbusy
    cases hi.symm.trans (hrefusal rfl)

end Sys2Proof.Machine
